-- ==== Sys2Proof/Word.lean ====
section
/-! DEFINITION. The widths of the core's numbers (00_scope.md rule R9, 10_state.md rule R20). Every number of
the core is unsigned (40_bitconverter.md rule R133). -/

namespace Sys2Proof

/-- An 8-bit operand or configuration number: `DEV_W`, `VAL_W`, `TXCOUNT_W`, `PIN_W` of rule R9. -/
abbrev Byte := BitVec 8

/-- The 24-bit command word `CMD` of the command port (rule R98). -/
abbrev CmdWord := BitVec 24

/-- A pulse-buffer entry, `PB_W` = 16 bits, a number of microseconds (rules R9, R21). -/
abbrev Micros := BitVec 16

/-- The operand of the delay primitive, `DLY_W` = 16 bits, a number of microseconds (rules R9, R242). -/
abbrev Delay := BitVec 16

/-- The controller identity `CFG.CID`, `CID_W` = 26 bits (rules R9, R26). -/
abbrev Identity := BitVec 26

/-- A pulse index or a physical length, 7 bits (rules R33, R34). -/
abbrev PulseIndex := BitVec 7

end Sys2Proof
end

