-- ==== Sys2Proof/Config.lean ====
section
/-! DEFINITION. What the platform draws (rules R160, R195, R196, R198; 93_implementation_defined.md U10): free
values. Each is a constant with no body, applied to the counter `State.draws`, so that a statement about it
holds for every value. Log entries 4 and 5. -/

namespace Sys2Proof

/-- The time from `Enter()`'s request to the platform's grant, in µs: "any finite non-negative time (a draw)"
(rule R195). -/
opaque Config.grantLatency : Nat → Nat

/-- What the platform adds to a wait outside the Locked window, in µs: there a wait is a lower bound (rule R198). -/
opaque Config.overshoot : Nat → Nat

/-- How long the platform keeps a yield, in µs: "any finite non-negative time (a draw)" (rule R196). -/
opaque Config.yieldTime : Nat → Nat

/-- How long a command's encoding lasts, in µs: "an unspecified finite time" (rule R160). -/
opaque Config.encodingTime : Nat → Nat

end Sys2Proof
end

