-- ==== Sys2Proof/Machine/Constants.lean ====
section
/-! DEFINITION. The protocol constants of rules R6 to R8, each once, under the spec's names, and the values the
model names for construction options and open parameters at reset. -/

namespace Sys2Proof.Machine

/-- `T_HIGH`, the high period of a data pulse (rule R6). -/
def tHigh : Delay := 270#16

/-- `T_SHORT` (rule R6). -/
def tShort : Micros := 280#16

/-- `T_LONG` (rule R6). -/
def tLong : Micros := 1240#16

/-- `T_LATCH_HIGH` (rule R6). -/
def tLatchHigh : Delay := 280#16

/-- `T_LATCH_LOW` (rule R6; exact by 90_conflicts.md C3). -/
def tLatchLow : Delay := 2675#16

/-- `T_GAP` (rule R6; exact by 90_conflicts.md C3). -/
def tGap : Delay := 9500#16

/-- `CID_DEFAULT` (rule R8). -/
def cidDefault : Identity := 1234567#26

/-- `TXCOUNT_DEFAULT` (rule R8). -/
def txCountDefault : Byte := 10#8

/-- The frame offset of the group flag (rule R90). -/
def groupFlagOffset : Nat := 26

/-- The frame offset of the command flag (rule R90). -/
def commandFlagOffset : Nat := 27

/-- The frame offset of the device address (rule R90). -/
def deviceOffset : Nat := 28

/-- The frame offset of the dim level (rule R90). -/
def dimOffset : Nat := 32

/-- The physical length of an `F32` frame, 2 × 32 (rules R7, R109). -/
def plen32 : PulseIndex := 64#7

/-- The physical length of an `F36` frame, 2 × 36 (rules R7, R109). -/
def plen36 : PulseIndex := 72#7

/-- The required option `tx_pin` that the reset state was constructed with. DESIGN CHOICE, log entry 2. -/
def resetTxPin : Byte := 0#8

/-- The open parameter `VALUE_MAX` in the reset state. DESIGN CHOICE, log entry 3. -/
def resetValueMax : Byte := 1#8

/-- The operand latches after construction, "unspecified" in rule R39. DESIGN CHOICE, log entry 6. -/
def resetLatch : Byte := 0#8

end Sys2Proof.Machine
end

