-- ==== Sys2Proof/Syntax.lean ====
section
/-! DEFINITION. The instructions: one constructor per row of spec/opcode_table.json. The first six are the
commands of rule R98, then the illegal command word (rule R101), then the twelve internal operations
(rule R111), which have no encoding. -/

namespace Sys2Proof

inductive Instr where
  /-- OFF, `op = 0x00` (rule R161). `val` is carried because the port latches it (rule R160); it has no other effect (rule R100). -/
  | deviceOff (dev val : Byte)
  /-- ON, `op = 0x01` (rule R162). -/
  | deviceOn (dev val : Byte)
  /-- GROUP_OFF, `op = 0x02` (rule R166). Both operand fields are ignored but for the latches. -/
  | groupOff (dev val : Byte)
  /-- GROUP_ON, `op = 0x03` (rule R165). -/
  | groupOn (dev val : Byte)
  /-- DIM, `op = 0x04` (rule R163). -/
  | dim (dev level : Byte)
  /-- SWITCH, `op = 0x05` (rule R167). -/
  | switch (dev value : Byte)
  /-- A command word that selects no command, `op ≥ 0x06` (rules R101, R235). -/
  | illegal (op dev val : Byte)
  /-- BITCONV(v, W) (rule R130); `v` has at most 32 bits in this hardware. -/
  | bitconv (v : BitVec 32) (width : Nat)
  /-- RESCALE(level) (rule R164). -/
  | rescale (level : Byte)
  /-- SETBIT(offset, value) (rule R140); a frame offset is 0 to 35 (rule R60). -/
  | setbit (offset : Fin 36) (value : Bool)
  /-- SETDIMSEL() (rule R141). -/
  | setdimsel
  /-- SETCTRL() (rule R142). -/
  | setctrl
  /-- SETDEV(address) (rule R143). -/
  | setdev (address : Byte)
  /-- SETDIM(level4) (rule R144). -/
  | setdim (level4 : Byte)
  /-- LATCH() (rule R190). -/
  | latch
  /-- PULSE(j) (rule R191); a pulse index is 0 to 71 (rule R60). -/
  | pulse (j : Fin 72)
  /-- REPETITION(P) (rule R192), defined for P from 0 to 72 (rule R204). -/
  | repetition (p : Fin 73)
  /-- TRANSMIT(P) (rule R193), defined for P from 0 to 72 (rule R204). -/
  | transmit (p : Fin 73)
  /-- CONSTRUCT(tx_pin, controller_id?, tx_count?, led_pin?) (rule R260). -/
  | construct (txPin : Byte) (controllerId : Option (BitVec 32)) (txCount ledPin : Option Byte)
  deriving DecidableEq, Repr

end Sys2Proof
end

