-- ==== Sys2Proof/Machine/State.lean ====
section
/-! DEFINITION. The machine's state as plain data (10_state.md rule R20), the reasons a step can stop, and the
state after construction, this hardware's reset (rules R39, R260). -/

namespace Sys2Proof.Machine

/-- `CFG` (rules R26 to R29). -/
structure Cfg where
  /-- `CFG.CID`, the controller identity. -/
  cid : Identity
  /-- `CFG.TXCOUNT`, the repetition count. -/
  txCount : Byte
  /-- `CFG.TXPIN`, the platform output that `TX` drives. -/
  txPin : Byte
  /-- `CFG.LEDPIN`, the indicator output; 0 is disabled. -/
  ledPin : Byte
  deriving DecidableEq, Repr

/-- `ST` (rule R31). -/
inductive CoreState where
  | idle
  | encoding
  | transmitting
  deriving DecidableEq, Repr

/-- `LOCK` (rule R32). -/
inductive Lock where
  | unlocked
  | locked
  deriving DecidableEq, Repr

/-- `PHASE`: the twelve phases of rule R199, in the order of their codes. -/
inductive Phase where
  | lockReq
  | ledOn
  | preHi
  | preLo
  | pulseHi
  | pulseLo
  | postHi
  | postLo
  | ledOff
  | unlock
  | gap
  | yield
  deriving DecidableEq, Repr

/-- `SEQ = (REP, PHASE, PIDX)`, the sequencer position, this hardware's program counter (rule R33). -/
structure Seq where
  rep : Byte
  phase : Phase
  pidx : PulseIndex
  deriving DecidableEq, Repr

/-- The events of the trace `WAVE` (rule R38). -/
inductive Event where
  | enter
  | leave
  | tx (level : Bool)
  | led (level : Bool)
  | wait (d : Delay)
  | yield
  deriving DecidableEq, Repr

/-- `RESCALE_MODE` (rules R9, R164). -/
inductive RescaleMode where
  | intended
  | reference
  deriving DecidableEq, Repr

/-- The parameters of the step relation that the spec leaves open (rules R9, R20): no operation writes them, and a
statement over every state holds for every value of them. Log entry 3. -/
structure Params where
  /-- `VALUE_MAX`, SWITCH's "on" sentinel, 1 to 255: not 0 (`ParamsWf` of Safety.lean, a clause of the invariant). -/
  valueMax : Byte
  rescaleMode : RescaleMode
  deriving DecidableEq, Repr

/-- What the core's surroundings may do: the host at its ports (rule R271), and the platform in what it answers (rules
R195, R196). -/
inductive Move where
  /-- Present a command word with `cmd_valid`, and hold it until it is accepted (rule R236). -/
  | command (w : CmdWord)
  /-- Reset the block with its four strap inputs (rule R260); the host does so only when the core is IDLE (rule R261). -/
  | construct (txPin : Byte) (controllerId : Option (BitVec 32)) (txCount ledPin : Option Byte)
  /-- Let `d` µs pass before the next move, the core being IDLE (rules R247, R271). Log entry 26. -/
  | pause (d : Nat)
  /-- From here on the platform answers so many lock requests and so many yields, and then none; `none` is every one
  (rules R195, R196, R273). Log entry 8. -/
  | platform (locks yields : Option Nat)
  deriving DecidableEq, Repr

/-- The list or number that the last BITCONV or RESCALE, run as an instruction of its own, gave. It is the model's
own field, not hardware state: those operations write none (rules R130, R164). Log entry 9. -/
inductive Answer where
  | nothing
  | bits (bs : List Bool)
  | number (n : Byte)
  deriving DecidableEq, Repr

/-- The state. The first group is the core's own (rule R20); the second is what the core's ports see of the host and
the platform; the third is the model's own. -/
@[ext]
structure State where
  /-- `PB[0..71]`, the pulse buffer (rules R21 to R24). `none` is an entry that nothing has written: the spec's own
  value of it (rule R39: "no value (unwritten)"), which stays distinguishable (rule R23). Log entry 1. -/
  pb : Vector (Option Micros) 72
  /-- `CFG` (rules R26 to R30). -/
  cfg : Cfg
  /-- `ST` (rule R31). -/
  st : CoreState
  /-- `LOCK` (rule R32). -/
  lock : Lock
  /-- `SEQ` (rule R33). -/
  seq : Seq
  /-- `PLEN` (rule R34). -/
  plen : PulseIndex
  /-- `OP`, the opcode latch (rule R37). -/
  op : Byte
  /-- `DEV`, the device latch (rule R37). -/
  dev : Byte
  /-- `VAL`, the level or value latch (rule R37). -/
  val : Byte
  /-- `TX`, the output pin's level (rule R40). -/
  tx : Bool
  /-- `LED`, the indicator pin's level (rule R41). -/
  led : Bool
  /-- `FAULT.ILLCMD` (rule R36). -/
  illCmd : Bool
  /-- `WAVE`, the trace since construction (rule R38). -/
  wave : List Event
  /-- The moves of the host and the platform, in order; the first is the one presented now. Log entries 7, 8 and 26. -/
  moves : List Move
  /-- The platform's input `lock_ack`: how many lock requests to come it grants, `none` being every one (rules R195, R273,
  92_eei_decisions.md D14). Log entry 8. -/
  lockAnswers : Option Nat
  /-- The platform's input `yield_ack`: how many yields to come it hands back, `none` being every one (rules R196, R273,
  92_eei_decisions.md D15). Log entry 8. -/
  yieldAnswers : Option Nat
  /-- The parameters of rule R9. -/
  params : Params
  /-- Elapsed time since construction in µs, with the platform's draws (rules R195 to R198) and the host's pauses. The
  model's own. Log entries 4 and 26. -/
  now : Nat
  /-- How many free values have been drawn. The model's own. Log entry 4. -/
  draws : Nat
  /-- The model's own. Log entry 9. -/
  answer : Answer
  deriving DecidableEq, Repr

/-- Why the machine stops. -/
inductive Fault where
  /-- UnwrittenRead, code 5 of rule R249: PULSE or phase PULSE_LO reads a `PB` entry that nothing has written. Safe: the
  spec gives the read no value, and no command reaches it (rule R76). -/
  | unwrittenRead
  /-- Phase PULSE_LO reads past the buffer, which "has no meaning" (rule R204); only in a state with `PLEN` above 72,
  which no run reaches. Safe. -/
  | pastBuffer
  /-- The core is ENCODING with an opcode latch that holds no command, a state no run reaches and the spec gives no
  effect (rules R31, R160). Safe. -/
  | encodingNoCommand
  deriving DecidableEq, Repr

/-- Why the model does not accept a move. -/
inductive Refusal where
  /-- An instruction that has no meaning yet. No arm of `exec` answers with it. Safe. -/
  | notModelled (mnemonic : String)
  /-- CONSTRUCT with `led_pin = tx_pin ≠ 0`: "refused by the model" (rules R29, R260; U7). Safe. -/
  | indicatorOnOutputPin
  /-- CONSTRUCT while a command is in progress: "not covered by any source", refused (rule R261; U9). Safe. -/
  | constructWhileBusy
  deriving DecidableEq, Repr

/-- The sequencer position in IDLE and ENCODING (rule R33). -/
def Seq.start : Seq := { rep := 0#8, phase := .lockReq, pidx := 0#7 }

/-- The state after `CONSTRUCT(tx_pin)` with every optional option absent (rules R39, R260). -/
def State.reset : State where
  pb := Vector.replicate 72 none
  cfg := { cid := cidDefault, txCount := txCountDefault, txPin := resetTxPin, ledPin := 0#8 }
  st := .idle
  lock := .unlocked
  seq := Seq.start
  plen := 0#7
  op := resetLatch
  dev := resetLatch
  val := resetLatch
  tx := false
  led := false
  illCmd := false
  wave := []
  moves := []
  lockAnswers := none
  yieldAnswers := none
  params := { valueMax := resetValueMax, rescaleMode := .intended }
  now := 0
  draws := 0
  answer := .nothing

end Sys2Proof.Machine
end

