-- ==== Sys2Proof/Machine/Flags.lean ====
section
/-! DEFINITION. The status flags and ports, functions of the state and no storage of their own (rules R35, R36, R236;
92_eei_decisions.md D1, D14, D15), and the phases in which the lock is held and the pins are high (rule R199). -/

namespace Sys2Proof.Machine

/-- `BUSY = (ST ≠ IDLE)` (rule R35). -/
def busy (s : State) : Bool := decide (s.st ≠ .idle)

/-- `READY = (ST = IDLE)` (rule R35). -/
def ready (s : State) : Bool := decide (s.st = .idle)

/-- `LOCKED = (LOCK = LOCKED)` (rule R35). -/
def lockedFlag (s : State) : Bool := decide (s.lock = .locked)

/-- `cmd_valid` and `CMD`: the command word the host presents, if the present move is one (rule R236). -/
def presented (s : State) : Option CmdWord :=
  match s.moves with
  | .command w :: _ => some w
  | _ => none

/-- `cmd_ready = READY` (rule R236). -/
def cmdReady (s : State) : Bool := ready s

/-- A command is accepted when `cmd_valid` and `cmd_ready` both hold, and only then (rule R236). -/
def accepts (s : State) : Bool := (presented s).isSome && cmdReady s

/-- `LOCK = LOCKED` before the step of a phase: phases 1 to 9 (rule R199). -/
def phaseLocked : Phase → Bool
  | .lockReq => false
  | .ledOn => true
  | .preHi => true
  | .preLo => true
  | .pulseHi => true
  | .pulseLo => true
  | .postHi => true
  | .postLo => true
  | .ledOff => true
  | .unlock => true
  | .gap => false
  | .yield => false

/-- `TX = 1` before the step of a phase: the phases that follow PRE_HI, PULSE_HI and POST_HI (rule R199). -/
def phaseTxHigh : Phase → Bool
  | .preLo => true
  | .pulseLo => true
  | .postLo => true
  | .lockReq => false
  | .ledOn => false
  | .preHi => false
  | .pulseHi => false
  | .postHi => false
  | .ledOff => false
  | .unlock => false
  | .gap => false
  | .yield => false

/-- An enabled indicator is high before the step of a phase: from PRE_HI to LED_OFF (rules R194, R199). -/
def phaseLedHigh : Phase → Bool
  | .preHi => true
  | .preLo => true
  | .pulseHi => true
  | .pulseLo => true
  | .postHi => true
  | .postLo => true
  | .ledOff => true
  | .lockReq => false
  | .ledOn => false
  | .unlock => false
  | .gap => false
  | .yield => false

/-- The code of a phase (rule R199), `PHASE` as 4 bits (rule R33). -/
def phaseCode : Phase → BitVec 4
  | .lockReq => 0#4
  | .ledOn => 1#4
  | .preHi => 2#4
  | .preLo => 3#4
  | .pulseHi => 4#4
  | .pulseLo => 5#4
  | .postHi => 6#4
  | .postLo => 7#4
  | .ledOff => 8#4
  | .unlock => 9#4
  | .gap => 10#4
  | .yield => 11#4

/-- The output `lock_req`: raised by `Enter()`, dropped by `Leave()` (92_eei_decisions.md D14). -/
def lockRequest (s : State) : Bool :=
  decide (s.st = .transmitting) && (decide (s.seq.phase = .lockReq) || phaseLocked s.seq.phase)

/-- The output `yield_req` (92_eei_decisions.md D15). -/
def yieldRequest (s : State) : Bool :=
  decide (s.st = .transmitting) && decide (s.seq.phase = .yield)

/-- The indicator is enabled iff `CFG.LEDPIN ≠ 0` (rule R29). -/
def indicatorEnabled (s : State) : Bool := decide (s.cfg.ledPin ≠ 0#8)

/-- The level the core drives on platform output `pin`: `CFG.TXPIN` selects `TX`'s (rule R28), an enabled
`CFG.LEDPIN` selects `LED`'s (rule R29); the core drives no other (rule R243). -/
def drivenLevel (s : State) (pin : Byte) : Option Bool :=
  if pin = s.cfg.txPin then some s.tx
  else if indicatorEnabled s = true ∧ pin = s.cfg.ledPin then some s.led
  else none

end Sys2Proof.Machine
end

