-- ==== Sys2Proof/Machine/Operands.lean ====
section
/-! DEFINITION. The core's integer functions: BITCONV and its inverse (40_bitconverter.md), RESCALE (rule R164),
truncation (00_scope.md notation), the count of the platform's answers and the inverse of the wire encoding (rule R94). -/

namespace Sys2Proof.Machine

/-- `BITCONV(v, W)` (rule R130): element `k` is value bit `W-1-k`, most significant first; bits at and above `W` are
dropped. -/
def bitconv (v width : Nat) : List Bool :=
  (List.range width).map fun k => v.testBit (width - 1 - k)

/-- `BITVAL(bs)` (rule R131), the inverse of BITCONV on lists of bits; a function of the model. -/
def bitval (bs : List Bool) : Nat :=
  bs.foldl (fun acc b => 2 * acc + b.toNat) 0

/-- `RESCALE(level)` (rule R164), computed exactly; the result is at most 38. -/
def rescale (mode : RescaleMode) (level : Byte) : Byte :=
  match mode with
  | .intended => BitVec.ofNat 8 ((level.toNat * 15 + 50) / 100)
  | .reference => 0#8

/-- `trunc_26` (rule R26): the controller identity keeps the low 26 bits of its construction input. -/
def truncIdentity (v : BitVec 32) : Identity := v.setWidth 26

/-- Whether a platform that answers `a` requests to come, `none` being every one, answers `n` of them (rules R195, R196,
R273). -/
def enough (n : Nat) (a : Option Nat) : Bool :=
  match a with
  | none => true
  | some k => decide (n ≤ k)

/-- What is left of the platform's answers after `n` of them. -/
def spend (n : Nat) (a : Option Nat) : Option Nat :=
  match a with
  | none => none
  | some k => some (k - n)

/-- A frame symbol (rule R94): a bit, the dim selector `D`, or `X`, which is never generated (rule R112). -/
inductive Sym where
  | bit (b : Bool)
  | dimSel
  | never
  deriving DecidableEq, Repr

/-- `PairSym(a, b)` (rule R94); `none` where the table says undefined, or an entry is unwritten. A function of the
model. -/
def pairSym : Option Micros → Option Micros → Option Sym
  | some a, some b =>
    if a = tShort ∧ b = tLong then some (.bit false)
    else if a = tLong ∧ b = tShort then some (.bit true)
    else if a = tShort ∧ b = tShort then some .dimSel
    else if a = tLong ∧ b = tLong then some .never
    else none
  | _, _ => none

/-- The `PB` entry at index `j`: `none` if nothing has written it or there is none. -/
def entry (s : State) (j : Nat) : Option Micros := (s.pb[j]?).join

/-- The frame symbol at offset `i`, from the entries `2i` and `2i+1` (rules R61, R94). -/
def symAt (s : State) (i : Nat) : Option Sym := pairSym (entry s (2 * i)) (entry s (2 * i + 1))

/-- `FrameOf(PB, L)` (rule R94). A function of the model; the hardware has no operation that computes it. -/
def frameOf (s : State) (len : Nat) : List (Option Sym) := (List.range len).map (symAt s)

end Sys2Proof.Machine
end

