-- ==== Sys2Proof/Machine/Ops.lean ====
section
/-! DEFINITION. The named operations over the state: the buffer's write and read, the pin, wait, lock and yield
primitives of 00_scope.md section 5, the field writes, the steps every command shares (rule R160), and the one
exception the core raises (rule R235). -/

namespace Sys2Proof.Machine

/-- Append an event to the trace (rule R38). -/
def emit (e : Event) (s : State) : State := { s with wave := s.wave ++ [e] }

/-- `PB[j] <- v`: exactly the entry written changes (rule R22). -/
def pbWrite (j : Nat) (v : Micros) (s : State) : State := { s with pb := s.pb.setIfInBounds j (some v) }

/-- Read `PB[j]`; an entry that nothing has written is a model fault (rules R39, R249 code 5), an index past the buffer
has no meaning (rule R204). -/
def pbRead (j : Nat) (s : State) : Except Fault Micros :=
  match s.pb[j]? with
  | some (some v) => .ok v
  | some none => .error .unwrittenRead
  | none => .error .pastBuffer

/-- `Drive(TX, b)` (rule R40). -/
def driveTx (b : Bool) (s : State) : State := emit (.tx b) { s with tx := b }

/-- `Drive(LED, b)` (rule R41). -/
def driveLed (b : Bool) (s : State) : State := emit (.led b) { s with led := b }

/-- `Wait(d)`: exactly `d` µs while LOCKED (rule R197), at least `d` µs otherwise (rule R198), and the outputs hold.
The two contexts differ in this alone (rule R241). -/
def wait (d : Delay) (s : State) : State :=
  match s.lock with
  | .locked => emit (.wait d) { s with now := s.now + d.toNat }
  | .unlocked => emit (.wait d) { s with now := s.now + d.toNat + Config.overshoot s.draws, draws := s.draws + 1 }

/-- `Enter()` when the platform grants: the grant takes a drawn time and `LOCK <- LOCKED` (rule R195). -/
def granted (s : State) : State :=
  emit .enter { s with
    lock := .locked
    lockAnswers := spend 1 s.lockAnswers
    now := s.now + Config.grantLatency s.draws
    draws := s.draws + 1 }

/-- `Enter()`: `none` while the platform does not grant (rule R195). -/
def enter (s : State) : Option State := if enough 1 s.lockAnswers then some (granted s) else none

/-- `Leave()`, which completes at once (rule R195). -/
def leave (s : State) : State := emit .leave { s with lock := .unlocked }

/-- `Yield()` when the platform hands control back, after a drawn time (rule R196). -/
def yielded (s : State) : State :=
  emit .yield { s with
    yieldAnswers := spend 1 s.yieldAnswers
    now := s.now + Config.yieldTime s.draws
    draws := s.draws + 1 }

/-- `Yield()`: `none` while the platform does not hand control back (rule R196). -/
def yieldTurn (s : State) : Option State := if enough 1 s.yieldAnswers then some (yielded s) else none

/-- Raise or lower the indicator, when it is enabled (rule R194). -/
def indicator (b : Bool) (s : State) : State := if indicatorEnabled s then driveLed b s else s

/-- `SEQ <- (rep, phase, pidx)` (rule R33). -/
def setSeq (rep : Byte) (phase : Phase) (pidx : PulseIndex) (s : State) : State :=
  { s with seq := { rep := rep, phase := phase, pidx := pidx } }

/-- Move to another phase of the same repetition and pulse. -/
def goPhase (phase : Phase) (s : State) : State := setSeq s.seq.rep phase s.seq.pidx s

/-- The wire encoding of a logical bit, first and second pulse of its pair (rule R92). -/
def bitPair (value : Bool) : Micros × Micros := if value then (tLong, tShort) else (tShort, tLong)

/-- Write the two entries that frame offset `offset` owns (rule R61), the first before the second. -/
def writePair (offset : Nat) (pair : Micros × Micros) (s : State) : State :=
  pbWrite (2 * offset + 1) pair.2 (pbWrite (2 * offset) pair.1 s)

/-- `SETBIT(offset, value)` (rule R140). -/
def setBit (offset : Nat) (value : Bool) (s : State) : State := writePair offset (bitPair value) s

/-- `SETDIMSEL()` (rule R141). -/
def setDimSel (s : State) : State := writePair commandFlagOffset (tShort, tShort) s

/-- Write the bits of a field at ascending offsets from `base`, each with SETBIT (rules R142 to R144). -/
def setField : Nat → List Bool → State → State
  | _, [], s => s
  | base, b :: bs, s => setField (base + 1) bs (setBit base b s)

/-- `SETCTRL()` (rule R142). -/
def setCtrl (s : State) : State := setField 0 (bitconv s.cfg.cid.toNat 26) s

/-- `SETDEV(address)` (rule R143). -/
def setDev (address : Byte) (s : State) : State := setField deviceOffset (bitconv address.toNat 4) s

/-- `SETDIM(level4)` (rule R144). -/
def setDim (level4 : Byte) (s : State) : State := setField dimOffset (bitconv level4.toNat 4) s

/-- Step 1 of a command: the latches are written and `ST <- ENCODING` (rule R160). -/
def acceptCommand (op dev val : Byte) (s : State) : State :=
  { s with op := op, dev := dev, val := val, st := .encoding }

/-- Steps 3 and 4 of a command: `PLEN` is latched, and the core starts to transmit from the first position of the
sequencer, or is IDLE again when the repetition count is 0 (rules R160, R202). The encoding has taken a drawn time. -/
def launch (plen : PulseIndex) (s : State) : State :=
  let t := { s with plen := plen, now := s.now + Config.encodingTime s.draws, draws := s.draws + 1 }
  if t.cfg.txCount = 0#8 then { t with st := .idle }
  else { t with st := .transmitting, seq := Seq.start }

/-- `raise IllegalCommand(cmd)`, the only exception the core raises: one sticky bit is set, and no state is saved, no
mode changed and no control transferred (rules R235, R239). -/
def raiseIllegal (s : State) : State := { s with illCmd := true }

/-- The fields of OFF (rule R161). -/
def offFields (s : State) : State :=
  setDev s.dev (setBit commandFlagOffset false (setBit groupFlagOffset false (setCtrl s)))

/-- The fields of ON (rule R162). -/
def onFields (s : State) : State :=
  setDev s.dev (setBit commandFlagOffset true (setBit groupFlagOffset false (setCtrl s)))

/-- The fields of GROUP_OFF (rule R166). -/
def groupOffFields (s : State) : State :=
  setDev 0#8 (setBit commandFlagOffset false (setBit groupFlagOffset true (setCtrl s)))

/-- The fields of GROUP_ON (rule R165). -/
def groupOnFields (s : State) : State :=
  setDev 0#8 (setBit commandFlagOffset true (setBit groupFlagOffset true (setCtrl s)))

/-- The fields of DIM (rule R163). -/
def dimFields (s : State) : State :=
  setDim (rescale s.params.rescaleMode s.val)
    (setDev s.dev (setDimSel (setBit groupFlagOffset false (setCtrl s))))

/-- The encoding of OFF: its fields, and a physical length of 64 (rules R160, R161). -/
def encodeOff (s : State) : State := launch plen32 (offFields s)

/-- The encoding of ON (rules R160, R162). -/
def encodeOn (s : State) : State := launch plen32 (onFields s)

/-- The encoding of GROUP_OFF (rules R160, R166). -/
def encodeGroupOff (s : State) : State := launch plen32 (groupOffFields s)

/-- The encoding of GROUP_ON (rules R160, R165). -/
def encodeGroupOn (s : State) : State := launch plen32 (groupOnFields s)

/-- The encoding of DIM, a physical length of 72 (rules R160, R163). -/
def encodeDim (s : State) : State := launch plen36 (dimFields s)

/-- The encoding of SWITCH: that of OFF, ON or DIM, chosen by the value latch (rules R108, R167). -/
def encodeSwitch (s : State) : State :=
  if s.val = 0#8 then encodeOff s
  else if s.val = s.params.valueMax then encodeOn s
  else encodeDim s

/-- Run a command from its acceptance: only an IDLE core accepts one, and to any other it makes no difference
(rules R160, R236). -/
def runCommand (op dev val : Byte) (encoding : State → State) (s : State) : State :=
  match s.st with
  | .idle => encoding (acceptCommand op dev val s)
  | .encoding => s
  | .transmitting => s

/-- The rest of a command whose latches are written and whose encoding has not run: what ST = ENCODING stands for
(rules R31, R160). -/
def resumeEncoding (s : State) : Host.Outcome State Fault Refusal :=
  if s.op = 0x00#8 then .next (encodeOff s)
  else if s.op = 0x01#8 then .next (encodeOn s)
  else if s.op = 0x02#8 then .next (encodeGroupOff s)
  else if s.op = 0x03#8 then .next (encodeGroupOn s)
  else if s.op = 0x04#8 then .next (encodeDim s)
  else if s.op = 0x05#8 then .next (encodeSwitch s)
  else .fault .encodingNoCommand

end Sys2Proof.Machine
end

