-- ==== Sys2Proof/Machine/BitConverter.lean ====
section
/-! DEFINITION. The pure operations BITCONV and RESCALE run as instructions of their own: no hardware state changes
(rules R130, R164), and the model's own field `answer` receives what they give. Log entry 9. -/

namespace Sys2Proof.Machine

/-- BITCONV(v, W) (rule R130). -/
def execBitconv (v : BitVec 32) (width : Nat) (s : State) : Host.Outcome State Fault Refusal :=
  .next { s with answer := .bits (bitconv v.toNat width) }

/-- RESCALE(level) (rule R164), under the machine's `RESCALE_MODE`. -/
def execRescale (level : Byte) (s : State) : Host.Outcome State Fault Refusal :=
  .next { s with answer := .number (rescale s.params.rescaleMode level) }

end Sys2Proof.Machine
end

