-- ==== Sys2Proof/Machine/Commands.lean ====
section
/-! DEFINITION. The six commands (42_commands.md) and the illegal command word (rule R235). A command's meaning is its
acceptance and its encoding, up to the start of the transmission, which the sequencer then runs a step at a time
(Machine/Sequencer.lean). -/

namespace Sys2Proof.Machine

/-- OFF (rule R161). -/
def execOff (dev val : Byte) (s : State) : Host.Outcome State Fault Refusal :=
  .next (runCommand 0x00#8 dev val encodeOff s)

/-- ON (rule R162). -/
def execOn (dev val : Byte) (s : State) : Host.Outcome State Fault Refusal :=
  .next (runCommand 0x01#8 dev val encodeOn s)

/-- GROUP_OFF (rule R166). -/
def execGroupOff (dev val : Byte) (s : State) : Host.Outcome State Fault Refusal :=
  .next (runCommand 0x02#8 dev val encodeGroupOff s)

/-- GROUP_ON (rule R165). -/
def execGroupOn (dev val : Byte) (s : State) : Host.Outcome State Fault Refusal :=
  .next (runCommand 0x03#8 dev val encodeGroupOn s)

/-- DIM (rule R163). -/
def execDim (dev level : Byte) (s : State) : Host.Outcome State Fault Refusal :=
  .next (runCommand 0x04#8 dev level encodeDim s)

/-- SWITCH (rule R167). -/
def execSwitch (dev value : Byte) (s : State) : Host.Outcome State Fault Refusal :=
  .next (runCommand 0x05#8 dev value encodeSwitch s)

/-- The illegal command word: accepted by an IDLE core, which raises IllegalCommand and stays IDLE (rules R101, R235);
a busy core does not accept it (rule R238). -/
def execIllegal (_op _dev _val : Byte) (s : State) : Host.Outcome State Fault Refusal :=
  match s.st with
  | .idle => .next (raiseIllegal s)
  | .encoding => .next s
  | .transmitting => .next s

end Sys2Proof.Machine
end

