-- ==== Sys2Proof/Machine/Construct.lean ====
section
/-! DEFINITION. CONSTRUCT, this hardware's reset with its strap inputs (rules R260, R261). -/

namespace Sys2Proof.Machine

/-- The configuration that the four options give (rules R8, R26 to R29, R260). -/
def cfgOf (txPin : Byte) (controllerId : Option (BitVec 32)) (txCount ledPin : Option Byte) : Cfg where
  cid := match controllerId with
    | some v => truncIdentity v
    | none => cidDefault
  txCount := txCount.getD txCountDefault
  txPin := txPin
  ledPin := ledPin.getD 0#8

/-- The state after construction: `CFG` as given, every other piece of the core's state at its reset value (rules R39,
R260). What stands outside the core (the moves, the platform's answers, the parameters) is not the core's to
reset, and the counter of draws goes on. -/
def constructed (cfg : Cfg) (s : State) : State :=
  { State.reset with
    cfg := cfg
    moves := s.moves
    lockAnswers := s.lockAnswers
    yieldAnswers := s.yieldAnswers
    params := s.params
    draws := s.draws }

/-- CONSTRUCT(tx_pin, controller_id?, tx_count?, led_pin?) (rule R260), refused on a busy core (rule R261, U9) and for an
indicator on the output pin (rule R29, U7). -/
def execConstruct (txPin : Byte) (controllerId : Option (BitVec 32)) (txCount ledPin : Option Byte) (s : State) :
    Host.Outcome State Fault Refusal :=
  if s.st ≠ .idle then .refused .constructWhileBusy
  else if ledPin.getD 0#8 ≠ 0#8 ∧ ledPin.getD 0#8 = txPin then .refused .indicatorOnOutputPin
  else .next (constructed (cfgOf txPin controllerId txCount ledPin) s)

end Sys2Proof.Machine
end

