-- ==== Sys2Proof/Machine/FrameEncoder.lean ====
section
/-! DEFINITION. FrameEncoder's operations run as instructions of their own (41_frame_encoder.md): unconditional writes
into the pulse buffer, with no error condition (rule R146). -/

namespace Sys2Proof.Machine

/-- SETBIT(offset, value) (rule R140). -/
def execSetbit (offset : Fin 36) (value : Bool) (s : State) : Host.Outcome State Fault Refusal :=
  .next (setBit offset.val value s)

/-- SETDIMSEL() (rule R141). -/
def execSetdimsel (s : State) : Host.Outcome State Fault Refusal := .next (setDimSel s)

/-- SETCTRL() (rule R142). -/
def execSetctrl (s : State) : Host.Outcome State Fault Refusal := .next (setCtrl s)

/-- SETDEV(address) (rule R143). -/
def execSetdev (address : Byte) (s : State) : Host.Outcome State Fault Refusal := .next (setDev address s)

/-- SETDIM(level4) (rule R144). -/
def execSetdim (level4 : Byte) (s : State) : Host.Outcome State Fault Refusal := .next (setDim level4 s)

end Sys2Proof.Machine
end

