-- ==== Sys2Proof/Machine/Transmitter.lean ====
section
/-! DEFINITION. The Transmitter's operations as rules R190 to R193 write them: LATCH, PULSE, REPETITION and TRANSMIT,
each run whole. An operation that asks the platform for the lock or a yield and gets no answer stands where the
sequencer would stand (rules R195, R196). -/

namespace Sys2Proof.Machine

/-- How far a transmission got: to its end, or to a request the platform does not answer (rule R249, codes 2 and 3). -/
inductive Progress where
  | done (s : State)
  | waiting (s : State)
  deriving DecidableEq, Repr

/-- `LATCH()` (rule R190). -/
def latchPulse (s : State) : State :=
  wait tLatchLow (driveTx false (wait tLatchHigh (driveTx true s)))

/-- The high period of a data pulse (rule R191). -/
def pulseHigh (s : State) : State := wait tHigh (driveTx true s)

/-- The low period of a data pulse, of `d` µs (rule R191). -/
def pulseLow (d : Micros) (s : State) : State := wait d (driveTx false s)

/-- `PULSE(j)` (rule R191). -/
def dataPulse (j : Nat) (s : State) : Except Fault State :=
  match pbRead j s with
  | .ok d => .ok (pulseLow d (pulseHigh s))
  | .error f => .error f

/-- `n` data pulses from index `j`, in ascending index (rules R63, R192). -/
def dataPulses : Nat → Nat → State → Except Fault State
  | 0, _, s => .ok s
  | n + 1, j, s =>
    match dataPulse j s with
    | .ok t => dataPulses n (j + 1) t
    | .error f => .error f

/-- What a repetition does after its post-latch: lower the indicator, release the lock, wait the gap (rule R192). -/
def closeRepetition (s : State) : State := wait tGap (leave (indicator false s))

/-- `REPETITION(P)` (rule R192). -/
def repetitionRun (p : Nat) (s : State) : Except Fault Progress :=
  match enter s with
  | none => .ok (.waiting (setSeq s.seq.rep .lockReq 0#7 s))
  | some t =>
    match dataPulses p 0 (latchPulse (indicator true t)) with
    | .error f => .error f
    | .ok u =>
      let v := closeRepetition (latchPulse u)
      match yieldTurn v with
      | none => .ok (.waiting (setSeq v.seq.rep .yield (BitVec.ofNat 7 p) v))
      | some w => .ok (.done (setSeq w.seq.rep .lockReq 0#7 w))

/-- `n` repetitions, counted in `REP` (rule R193). -/
def repetitions (p : Nat) : Nat → State → Except Fault Progress
  | 0, s => .ok (.done s)
  | n + 1, s =>
    match repetitionRun p s with
    | .error f => .error f
    | .ok (.waiting t) => .ok (.waiting t)
    | .ok (.done t) => repetitions p n (setSeq (t.seq.rep + 1#8) .lockReq 0#7 t)

/-- `TRANSMIT(P)`, and the command's `ST <- IDLE` that follows its end (rules R160, R193). -/
def transmitRun (p : Nat) (s : State) : Except Fault Progress :=
  match repetitions p s.cfg.txCount.toNat (setSeq 0#8 .lockReq 0#7 s) with
  | .error f => .error f
  | .ok (.waiting t) => .ok (.waiting t)
  | .ok (.done t) => .ok (.done { t with seq := Seq.start, st := .idle })

/-- The outcome of an operation that may fault. -/
def settle (r : Except Fault State) : Host.Outcome State Fault Refusal :=
  match r with
  | .ok t => .next t
  | .error f => .fault f

/-- The outcome of an operation that may stand waiting for the platform: the state it stands in. -/
def settleProgress (r : Except Fault Progress) : Host.Outcome State Fault Refusal :=
  match r with
  | .ok (.done t) => .next t
  | .ok (.waiting t) => .next t
  | .error f => .fault f

/-- LATCH() (rule R190). -/
def execLatch (s : State) : Host.Outcome State Fault Refusal := .next (latchPulse s)

/-- PULSE(j) (rule R191). -/
def execPulse (j : Fin 72) (s : State) : Host.Outcome State Fault Refusal := settle (dataPulse j.val s)

/-- REPETITION(P) (rule R192). -/
def execRepetition (p : Fin 73) (s : State) : Host.Outcome State Fault Refusal :=
  settleProgress (repetitionRun p.val s)

/-- TRANSMIT(P) (rule R193). -/
def execTransmit (p : Fin 73) (s : State) : Host.Outcome State Fault Refusal :=
  settleProgress (transmitRun p.val s)

/-! The big-step form of a transmission as trace expressions (rule R205), for the statements and the tests. -/

/-- `Latch` of rule R205. -/
def latchTrace : List Event := [.tx true, .wait 280#16, .tx false, .wait 2675#16]

/-- `Pulse(j)` of rule R205, for a low period of `d` µs. -/
def pulseTrace (d : Micros) : List Event := [.tx true, .wait 270#16, .tx false, .wait d]

/-- `Rep(P)` of rule R205, for the low periods `ds` and an indicator enabled or not. -/
def repTrace (ledEnabled : Bool) (ds : List Micros) : List Event :=
  [.enter] ++ (if ledEnabled then [.led true] else []) ++ latchTrace ++ ds.flatMap pulseTrace ++ latchTrace
    ++ (if ledEnabled then [.led false] else []) ++ [.leave] ++ [.wait 9500#16, .yield]

/-- `Transmit(P)` of rule R205: `n` times the trace of one repetition. -/
def transmitTrace (ledEnabled : Bool) (ds : List Micros) (n : Nat) : List Event :=
  (List.replicate n (repTrace ledEnabled ds)).flatten

/-- `MemRead(0, n)` (00_scope.md section 5); an unwritten entry counts 0. -/
def lowPeriods (s : State) (n : Nat) : List Micros :=
  (List.range n).map fun j => (entry s j).getD 0#16

/-- The sum of the waits of a trace, in µs. -/
def waitSum : List Event → Nat
  | [] => 0
  | .wait d :: es => d.toNat + waitSum es
  | .enter :: es => waitSum es
  | .leave :: es => waitSum es
  | .tx _ :: es => waitSum es
  | .led _ :: es => waitSum es
  | .yield :: es => waitSum es

end Sys2Proof.Machine
end

