-- ==== Sys2Proof/Machine/Dispatch.lean ====
section
/-! DEFINITION. One arm per instruction, each a call of its meaning. -/

namespace Sys2Proof.Machine

open Sys2Proof

def exec (i : Instr) (s : State) : Host.Outcome State Fault Refusal :=
  match i with
  | .deviceOff dev val => Sys2Proof.Machine.execOff dev val s
  | .deviceOn dev val => Sys2Proof.Machine.execOn dev val s
  | .groupOff dev val => Sys2Proof.Machine.execGroupOff dev val s
  | .groupOn dev val => Sys2Proof.Machine.execGroupOn dev val s
  | .dim dev level => Sys2Proof.Machine.execDim dev level s
  | .switch dev value => Sys2Proof.Machine.execSwitch dev value s
  | .illegal op dev val => Sys2Proof.Machine.execIllegal op dev val s
  | .bitconv v width => Sys2Proof.Machine.execBitconv v width s
  | .rescale level => Sys2Proof.Machine.execRescale level s
  | .setbit offset value => Sys2Proof.Machine.execSetbit offset value s
  | .setdimsel => Sys2Proof.Machine.execSetdimsel s
  | .setctrl => Sys2Proof.Machine.execSetctrl s
  | .setdev address => Sys2Proof.Machine.execSetdev address s
  | .setdim level4 => Sys2Proof.Machine.execSetdim level4 s
  | .latch => Sys2Proof.Machine.execLatch s
  | .pulse j => Sys2Proof.Machine.execPulse j s
  | .repetition p => Sys2Proof.Machine.execRepetition p s
  | .transmit p => Sys2Proof.Machine.execTransmit p s
  | .construct txPin controllerId txCount ledPin => Sys2Proof.Machine.execConstruct txPin controllerId txCount ledPin s

end Sys2Proof.Machine
end

