-- ==== Sys2Proof/WellFormed.lean ====
section
/-! DEFINITION. Which instructions are well formed. Operand ranges that a width or a `Fin` expresses need no check. -/

namespace Sys2Proof

/-- The illegal command word is one whose opcode is `0x06` or greater (rule R101); BITCONV's width is 26 or 4 in
every use (rule R130). -/
def Instr.wellFormed : Instr → Bool
  | .illegal op _ _ => decide (6 ≤ op.toNat)
  | .bitconv _ width => width == 4 || width == 26
  | .deviceOff _ _ => true
  | .deviceOn _ _ => true
  | .groupOff _ _ => true
  | .groupOn _ _ => true
  | .dim _ _ => true
  | .switch _ _ => true
  | .rescale _ => true
  | .setbit _ _ => true
  | .setdimsel => true
  | .setctrl => true
  | .setdev _ => true
  | .setdim _ => true
  | .latch => true
  | .pulse _ => true
  | .repetition _ => true
  | .transmit _ => true
  | .construct _ _ _ _ => true

end Sys2Proof
end

