-- ==== Sys2Proof/Decode.lean ====
section
/-! DEFINITION. The command word (rules R98 to R101): its fields, the decoder, which is total because every word
that selects no command is the illegal command word, and the encoder. -/

namespace Sys2Proof

/-- `CMD[23:16]`, the opcode (rule R98). -/
def opField (w : CmdWord) : Byte := w.extractLsb' 16 8

/-- `CMD[15:8]`, the `device` operand (rule R98). -/
def devField (w : CmdWord) : Byte := w.extractLsb' 8 8

/-- `CMD[7:0]`, the `level` or `value` operand (rule R98). -/
def valField (w : CmdWord) : Byte := w.extractLsb' 0 8

/-- The opcode assignment of rule R99. The decoder matches on `CMD[23:16]` alone (rule R100). -/
def decode (w : CmdWord) : Instr :=
  if opField w = 0x00#8 then .deviceOff (devField w) (valField w)
  else if opField w = 0x01#8 then .deviceOn (devField w) (valField w)
  else if opField w = 0x02#8 then .groupOff (devField w) (valField w)
  else if opField w = 0x03#8 then .groupOn (devField w) (valField w)
  else if opField w = 0x04#8 then .dim (devField w) (valField w)
  else if opField w = 0x05#8 then .switch (devField w) (valField w)
  else .illegal (opField w) (devField w) (valField w)

/-- A command word from its three fields (rule R98). -/
def cmdWord (op dev val : Byte) : CmdWord := op ++ dev ++ val

/-- The command word of an instruction; an internal operation has none (rule R111). -/
def encode : Instr → Option CmdWord
  | .deviceOff dev val => some (cmdWord 0x00#8 dev val)
  | .deviceOn dev val => some (cmdWord 0x01#8 dev val)
  | .groupOff dev val => some (cmdWord 0x02#8 dev val)
  | .groupOn dev val => some (cmdWord 0x03#8 dev val)
  | .dim dev level => some (cmdWord 0x04#8 dev level)
  | .switch dev value => some (cmdWord 0x05#8 dev value)
  | .illegal op dev val => some (cmdWord op dev val)
  | .bitconv _ _ => none
  | .rescale _ => none
  | .setbit _ _ => none
  | .setdimsel => none
  | .setctrl => none
  | .setdev _ => none
  | .setdim _ => none
  | .latch => none
  | .pulse _ => none
  | .repetition _ => none
  | .transmit _ => none
  | .construct _ _ _ _ => none

/-- The command word whose low `nbits` bits are those of `w` and whose other bits are 0. -/
def tableWord (nbits w : Nat) : CmdWord := BitVec.ofNat 24 (w % 2 ^ nbits)

/-- What the decoder reads from a word given as spec/opcode_table.json numbers its bits. The command port is 24
bits wide (rule R98), so a longer word is no command word. -/
def decodeTableWord (nbits w : Nat) : Option Instr :=
  if nbits ≤ 24 then some (decode (tableWord nbits w)) else none

end Sys2Proof
end

