-- ==== Sys2Proof/Machine/Sequencer.lean ====
section
/-! DEFINITION. The sequencer as the step table of rule R199, one row a step, and the core's command port (rules R236,
R271), where an IDLE core takes the next move of its surroundings. -/

namespace Sys2Proof.Machine

/-- Phase PULSE_LO once its low period is known to be `d` (rule R199, code 5). -/
def pulseLoStep (d : Micros) (s : State) : State :=
  let t := pulseLow d s
  setSeq t.seq.rep (if t.seq.pidx + 1#7 = t.plen then .postHi else .pulseHi) (t.seq.pidx + 1#7) t

/-- Phase YIELD once the platform has handed control back (rule R199, code 11). -/
def yieldStep (s : State) : State :=
  if s.seq.rep + 1#8 = s.cfg.txCount then { s with seq := Seq.start, st := .idle }
  else setSeq (s.seq.rep + 1#8) .lockReq 0#7 s

/-- One row of the step table (rule R199). A request that the platform does not answer leaves the state as it is: the
stuck states of rule R249, codes 2 and 3. -/
def sequencerStep (s : State) : Host.Outcome State Fault Refusal :=
  match s.seq.phase with
  | .lockReq =>
    match enter s with
    | some t => .next (goPhase .ledOn t)
    | none => .next s
  | .ledOn => .next (goPhase .preHi (indicator true s))
  | .preHi => .next (goPhase .preLo (wait tLatchHigh (driveTx true s)))
  | .preLo =>
    .next (setSeq s.seq.rep (if s.plen = 0#7 then .postHi else .pulseHi) 0#7 (wait tLatchLow (driveTx false s)))
  | .pulseHi => .next (goPhase .pulseLo (pulseHigh s))
  | .pulseLo =>
    match pbRead s.seq.pidx.toNat s with
    | .ok d => .next (pulseLoStep d s)
    | .error f => .fault f
  | .postHi => .next (goPhase .postLo (wait tLatchHigh (driveTx true s)))
  | .postLo => .next (goPhase .ledOff (wait tLatchLow (driveTx false s)))
  | .ledOff => .next (goPhase .unlock (indicator false s))
  | .unlock => .next (goPhase .gap (leave s))
  | .gap => .next (goPhase .yield (wait tGap s))
  | .yield =>
    match yieldTurn s with
    | some t => .next (yieldStep t)
    | none => .next s

/-- What an IDLE core finds at its ports. -/
inductive Fetched where
  /-- Nothing is presented. -/
  | nothing
  /-- A move of the surroundings that is no instruction: the state after it. -/
  | passed (s : State)
  /-- An instruction, and the state in which the move that gave it is done. -/
  | instr (i : Instr) (s : State)
  deriving DecidableEq, Repr

/-- What an IDLE core takes from its ports: the present move, which is then done (rules R236, R271). A command word is
decoded; a pause lets its time pass (rule R247); a move of the platform sets what it answers (rules R195, R196). -/
def fetch (s : State) : Fetched :=
  match s.moves with
  | [] => .nothing
  | .command w :: rest => .instr (decode w) { s with moves := rest }
  | .construct txPin controllerId txCount ledPin :: rest =>
    .instr (.construct txPin controllerId txCount ledPin) { s with moves := rest }
  | .pause d :: rest => .passed { s with moves := rest, now := s.now + d }
  | .platform locks yields :: rest => .passed { s with moves := rest, lockAnswers := locks, yieldAnswers := yields }

/-- The state in which the host presents word `w` now, to a core that is IDLE. -/
def presentWord (w : CmdWord) (s : State) : State := { s with st := .idle, moves := .command w :: s.moves }

end Sys2Proof.Machine
end

