-- ==== Sys2Proof/Machine/Step.lean ====
section
/-! DEFINITION. One step of the machine: an IDLE core takes the next move of its surroundings or waits for one, an ENCODING core
completes its encoding, a TRANSMITTING core runs one row of the step table (rules R31, R199, R236, R247). -/

namespace Sys2Proof.Machine

/-- One step. DESIGN CHOICE: an IDLE core accepts the present move at once, and with none presented it waits without
`now` advancing; the time a core stays IDLE, which the spec leaves to the host, is what the host's pauses say. Log
entry 26. -/
def step (s : State) : Host.Outcome State Fault Refusal :=
  match s.st with
  | .idle =>
    match fetch s with
    | .instr i t => exec i t
    | .passed t => .next t
    | .nothing => .next s
  | .encoding => resumeEncoding s
  | .transmitting => sequencerStep s

/-- The state in which the host presents, to an IDLE core, the word that `nbits` and `w` give as
spec/opcode_table.json numbers its bits: the very next step accepts it and runs it. Log entry 7. -/
def State.withFetchWord (s : State) (nbits w : Nat) : State := presentWord (tableWord nbits w) s

end Sys2Proof.Machine
end

