-- ==== Sys2Proof/Safety.lean ====
section
/-! DEFINITION. What a safe run of the core is, and the terms the statements use: the invariant of the machine, the
frames of rule R110, and the states a command and a transmission lead to. -/

namespace Sys2Proof.Machine

/-- What a pair of buffer entries at frame offset `i` can hold (rules R92, R93, R112): nothing yet, a logical 0, a
logical 1, or, at offset 27 alone, the dim selector. -/
abbrev PairWf (i : Nat) (a b : Option Micros) : Prop :=
  (a = none ∧ b = none) ∨ (a = some tShort ∧ b = some tLong) ∨ (a = some tLong ∧ b = some tShort) ∨
    (i = commandFlagOffset ∧ a = some tShort ∧ b = some tShort)

/-- Every pair of the buffer is one the wire encoding has (rules R23, R65, R112). -/
abbrev WireWf (s : State) : Prop := ∀ i < 36, PairWf i (entry s (2 * i)) (entry s (2 * i + 1))

/-- The lock is held exactly while one `ENTER` has no `LEAVE` yet (rules R32, R43). -/
abbrev LockBalanced (s : State) : Prop :=
  s.wave.count .enter = s.wave.count .leave + (if s.lock = .locked then 1 else 0)

/-- The delay primitive is used with five durations only (rule R242). -/
def waitAllowed : Event → Bool
  | .wait d => decide (d ∈ [270#16, 280#16, 1240#16, 2675#16, 9500#16])
  | .enter => true
  | .leave => true
  | .tx _ => true
  | .led _ => true
  | .yield => true

/-- Every wait of the trace is one of the five (rule R242). -/
abbrev WaitsWf (s : State) : Prop := ∀ e ∈ s.wave, waitAllowed e = true

/-- The waits of the trace are a lower bound of the elapsed time (rule R198). -/
abbrev ClockWf (s : State) : Prop := waitSum s.wave ≤ s.now

/-- An enabled indicator is not on the output pin (rule R29). -/
abbrev CfgWf (s : State) : Prop := s.cfg.ledPin = 0#8 ∨ s.cfg.ledPin ≠ s.cfg.txPin

/-- `VALUE_MAX` is 1 to 255 (rule R9). -/
abbrev ParamsWf (s : State) : Prop := s.params.valueMax ≠ 0#8

/-- `PLEN` is 0 before the first command and then 64 or 72 (rules R34, R39). -/
abbrev PlenWf (s : State) : Prop := s.plen = 0#7 ∨ s.plen = plen32 ∨ s.plen = plen36

/-- The core holds no lock, both pins are low and the sequencer is at its start (rules R33, R43, R265). -/
abbrev AtRest (s : State) : Prop :=
  s.lock = .unlocked ∧ s.tx = false ∧ s.led = false ∧ s.seq = Seq.start

/-- Where `PIDX` stands in each phase: at 0 before the data pulses, below `PLEN` in them, at `PLEN` after them (rules
R33, R199). -/
abbrev PidxWf (s : State) : Prop :=
  if s.seq.phase ∈ [Phase.lockReq, .ledOn, .preHi, .preLo] then s.seq.pidx = 0#7
  else if s.seq.phase ∈ [Phase.pulseHi, .pulseLo] then s.seq.pidx.toNat < s.plen.toNat
  else s.seq.pidx = s.plen

/-- A transmission in progress: every entry it emits is written (rule R76), `REP` is below the count (rule R33), and
the lock and the pins are as the phase says (rule R199). -/
abbrev Sending (s : State) : Prop :=
  (s.plen = plen32 ∨ s.plen = plen36) ∧
  (∀ j < s.plen.toNat, (entry s j).isSome = true) ∧
  s.seq.rep.toNat < s.cfg.txCount.toNat ∧
  PidxWf s ∧
  (s.lock = if phaseLocked s.seq.phase then .locked else .unlocked) ∧
  s.tx = phaseTxHigh s.seq.phase ∧
  s.led = (indicatorEnabled s && phaseLedHigh s.seq.phase)

/-- What `ST` asks of the rest of the state. -/
abbrev PhaseInv (s : State) : Prop :=
  (s.st ≠ .transmitting → AtRest s) ∧ (s.st = .transmitting → Sending s)

/-- The invariant of the machine. -/
abbrev CoreInv (s : State) : Prop :=
  WireWf s ∧ LockBalanced s ∧ WaitsWf s ∧ ClockWf s ∧ CfgWf s ∧ ParamsWf s ∧ PlenWf s ∧ PhaseInv s

/-- `k` steps of the machine, stopping at the first fault or refusal: `Host.Core.run` of this machine. -/
def runSteps : Nat → State → Host.Outcome State Fault Refusal
  | 0, s => .next s
  | k + 1, s =>
    match step s with
    | .next t => runSteps k t
    | .fault f => .fault f
    | .refused r => .refused r

/-- A run is safe while no illegal command word has been accepted (rules R36, R249: the fault is recorded, and sticky). -/
abbrev Clean (s : State) : Prop := s.illCmd = false

/-- The frame of rule R110, a symbol per frame offset: the controller identity, the group flag, the command flag or
the dim selector, the device address, the dim level, each field most significant bit first (rule R62). -/
def frameSym (cid : Identity) (group : Bool) (command : Sym) (device level : Nat) (i : Nat) : Sym :=
  if i < 26 then .bit (cid.toNat.testBit (25 - i))
  else if i = 26 then .bit group
  else if i = 27 then command
  else if i < 32 then .bit (device.testBit (31 - i))
  else .bit (level.testBit (35 - i))

/-- The buffer of `s` holds the frame `f` of `len` symbols (rule R94). -/
abbrev HoldsFrame (s : State) (f : Nat → Sym) (len : Nat) : Prop := ∀ i < len, symAt s i = some (f i)

/-- Entries `lo` to `hi - 1` are the same in both states. -/
abbrev SameEntries (s t : State) (lo hi : Nat) : Prop := ∀ j, lo ≤ j → j < hi → entry t j = entry s j

/-- `t` is `s` after a command was accepted and encoded (rules R160, R202): the latches, `PLEN`, and the core
TRANSMITTING from its first position, or IDLE where the repetition count is 0. The buffer and the elapsed time, which
never goes back, are `t`'s own; everything else is as in `s`. -/
abbrev AfterCommand (s t : State) (op dev val : Byte) (plen : PulseIndex) : Prop :=
  s.now ≤ t.now ∧
  t = { s with
    pb := t.pb
    op := op
    dev := dev
    val := val
    plen := plen
    st := if s.cfg.txCount = 0#8 then .idle else .transmitting
    seq := if s.cfg.txCount = 0#8 then s.seq else Seq.start
    now := t.now
    draws := s.draws + 1 }

/-- `t` is `s` but for the pulse buffer. -/
abbrev SameButBuffer (s t : State) : Prop := t = { s with pb := t.pb }

/-- The elapsed times of two states compared with the waits that lie between them: exactly `d` µs if `exact`, at least
`d` µs otherwise (rules R197, R198). -/
abbrev Elapsed (exact : Bool) (s t : State) (d : Nat) : Prop :=
  s.now + d ≤ t.now ∧ (exact = true → t.now = s.now + d)

end Sys2Proof.Machine
end

