-- ==== Sys2Proof/Certificates/Slice0/Obligations.lean ====
section
/-! DEFINITION. The statements for the provers, each with the rule of spec/ it formalises. -/

open Sys2Proof Sys2Proof.Machine

/-! ## Encoding -/

/-- Rules R98 to R101: the decoder reads back every operand of every well-formed instruction that has a command word. -/
def Obligations.DecodeInvertsEncode : Prop :=
  ∀ (i : Instr) (w : CmdWord), i.wellFormed = true → encode i = some w → decode w = i

/-- Rules R98 to R101: every command word decodes to a well-formed instruction, whose own command word it is. -/
def Obligations.EncodeInvertsDecode : Prop :=
  ∀ w : CmdWord, (decode w).wellFormed = true ∧ encode (decode w) = some w

/-- Words written out from rules R98 and R99 decode to the instructions they stand for (95_test_vectors.md 2.3 to 2.6). -/
def Obligations.WrittenWordsDecode : Prop :=
  decode 0b000000000000010110101011#24 = .deviceOff 5#8 0xAB#8 ∧
  decode 0b000000010000111100000000#24 = .deviceOn 15#8 0#8 ∧
  decode 0b000000100000000000000000#24 = .groupOff 0#8 0#8 ∧
  decode 0b000000111111111111111111#24 = .groupOn 0xFF#8 0xFF#8 ∧
  decode 0b000001000000001100110010#24 = .dim 3#8 50#8 ∧
  decode 0b000001010000100111111111#24 = .switch 9#8 255#8 ∧
  decode 0b000001110000000000000000#24 = .illegal 7#8 0#8 0#8

/-! ## Construction and the invariant -/

/-- Rule R39: the values the spec gives the state after construction, at reset. The output pin, the operand latches,
the parameters and the platform's answers are the model's choices (log entries 2, 3, 6 and 8) and are not stated here. -/
def Obligations.ResetValues : Prop :=
  (∀ j, entry State.reset j = none) ∧
  State.reset.cfg.cid = 1234567#26 ∧ State.reset.cfg.txCount = 10#8 ∧ State.reset.cfg.ledPin = 0#8 ∧
  State.reset.st = .idle ∧ State.reset.lock = .unlocked ∧
  State.reset.seq = { rep := 0#8, phase := .lockReq, pidx := 0#7 } ∧ State.reset.plen = 0#7 ∧
  State.reset.tx = false ∧ State.reset.led = false ∧ State.reset.illCmd = false ∧ State.reset.wave = []

/-- The invariant of the machine holds at reset. -/
def Obligations.ResetMeetsTheInvariant : Prop := CoreInv State.reset

/-- Every step keeps the invariant (rules R9, R23, R29, R32, R33, R43, R76, R112, R198, R199, R242, R265). -/
def Obligations.StepKeepsTheInvariant : Prop :=
  ∀ s t : State, CoreInv s → step s = .next t → CoreInv t

/-- Rule R76: under the invariant no step reads an entry that nothing has written, or past the buffer. The one fault left,
`encodingNoCommand`, is the model's own (log entry 17) and not an outcome of rule R249: that of an ENCODING core whose
opcode latch holds no command, a state no run reaches. -/
def Obligations.NoStepReadsAnUnwrittenEntry : Prop :=
  ∀ (s : State) (f : Fault), CoreInv s → step s = .fault f → s.st = .encoding ∧ f = .encodingNoCommand

/-- Rules R260, R39: construction writes `CFG` from its options, with the defaults of rule R8 and the identity
truncated to 26 bits, and puts every piece of the core's state the spec gives a value at that value. The latches OP, DEV
and VAL, which the spec leaves unspecified, are not stated. The last clause is the frame: the moves to come, the
platform's answers, the parameters and the counter of draws are as before. -/
def Obligations.ConstructWritesTheConfiguration : Prop :=
  ∀ (s : State) (txPin : Byte) (controllerId : Option (BitVec 32)) (txCount ledPin : Option Byte),
    s.st = .idle → (ledPin.getD 0#8 = 0#8 ∨ ledPin.getD 0#8 ≠ txPin) →
    ∃ t, exec (.construct txPin controllerId txCount ledPin) s = .next t ∧
      t.cfg.txPin = txPin ∧
      (∀ v, controllerId = some v → t.cfg.cid.toNat = v.toNat % 2 ^ 26) ∧
      (controllerId = none → t.cfg.cid = 1234567#26) ∧
      (∀ n, txCount = some n → t.cfg.txCount = n) ∧ (txCount = none → t.cfg.txCount = 10#8) ∧
      (∀ p, ledPin = some p → t.cfg.ledPin = p) ∧ (ledPin = none → t.cfg.ledPin = 0#8) ∧
      (∀ j, entry t j = none) ∧ t.st = .idle ∧ t.lock = .unlocked ∧ t.seq = Seq.start ∧ t.plen = 0#7 ∧
      t.tx = false ∧ t.led = false ∧ t.illCmd = false ∧ t.wave = [] ∧
      t.moves = s.moves ∧ t.lockAnswers = s.lockAnswers ∧ t.yieldAnswers = s.yieldAnswers ∧ t.params = s.params ∧
      t.draws = s.draws

/-- Rules R29 and R261 with U7 and U9: the model refuses a construction that puts the indicator on the output pin, and
one while a command is in progress. -/
def Obligations.ConstructRefusesWhatTheSpecRefuses : Prop :=
  (∀ (s : State) (txPin : Byte) (controllerId : Option (BitVec 32)) (txCount : Option Byte),
    s.st = .idle → txPin ≠ 0#8 →
    exec (.construct txPin controllerId txCount (some txPin)) s = .refused .indicatorOnOutputPin) ∧
  (∀ (s : State) (txPin : Byte) (controllerId : Option (BitVec 32)) (txCount ledPin : Option Byte),
    s.st ≠ .idle → exec (.construct txPin controllerId txCount ledPin) s = .refused .constructWhileBusy)

/-- Rule R30: no instruction but CONSTRUCT writes `CFG`. -/
def Obligations.OnlyConstructWritesTheConfiguration : Prop :=
  ∀ (i : Instr) (s t : State),
    (∀ txPin controllerId txCount ledPin, i ≠ .construct txPin controllerId txCount ledPin) →
    exec i s = .next t → t.cfg = s.cfg

/-! ## The command port -/

/-- Rules R236 and R238: a step of an IDLE core to which the host presents a command word runs the decoded instruction,
and the host's move is done. -/
def Obligations.StepRunsThePresentedWord : Prop :=
  ∀ (s : State) (w : CmdWord) (rest : List Move), s.st = .idle → s.moves = .command w :: rest →
    step s = exec (decode w) { s with moves := rest }

/-- Rule R271: a step of an IDLE core that the host constructs again runs the construction. -/
def Obligations.StepRunsTheConstruction : Prop :=
  ∀ (s : State) (txPin : Byte) (controllerId : Option (BitVec 32)) (txCount ledPin : Option Byte) (rest : List Move),
    s.st = .idle → s.moves = .construct txPin controllerId txCount ledPin :: rest →
    step s = exec (.construct txPin controllerId txCount ledPin) { s with moves := rest }

/-- The word the host places is the one the next step runs: `withFetchWord` presents it to an IDLE core. -/
def Obligations.PlacedWordRuns : Prop :=
  ∀ (s : State) (nbits w : Nat) (i : Instr), decodeTableWord nbits w = some i →
    step (s.withFetchWord nbits w) = exec i { s with st := .idle }

/-- Rule R247: an IDLE core to which nothing is presented does nothing. That no time passes then is the model's choice
(log entry 26). -/
def Obligations.IdleCoreWaits : Prop :=
  ∀ s : State, s.st = .idle → s.moves = [] → step s = .next s

/-- Rules R247, R195 and R196: an IDLE core lets a pause of its host pass without any change but in time, and takes from
the platform how many requests to come it answers. That these come as moves in the state is the model's choice (log
entries 8 and 26). -/
def Obligations.IdleCoreTakesPausesAndAnswers : Prop :=
  ∀ (s : State) (rest : List Move), s.st = .idle →
    (∀ d, s.moves = .pause d :: rest → step s = .next { s with moves := rest, now := s.now + d }) ∧
    (∀ locks yields, s.moves = .platform locks yields :: rest →
      step s = .next { s with moves := rest, lockAnswers := locks, yieldAnswers := yields })

/-- Rules R236 and R238: whatever word a busy core is given, legal or not, has no effect. -/
def Obligations.BusyCoreAcceptsNoWord : Prop :=
  ∀ (s : State) (w : CmdWord), s.st ≠ .idle → exec (decode w) s = .next s

/-- Rules R201 and R236: while the core is busy no step depends on, or changes, what the host presents. -/
def Obligations.BusyStepIgnoresTheHost : Prop :=
  ∀ (s : State) (moves : List Move), s.st ≠ .idle →
    (∀ t, step s = .next t → step { s with moves := moves } = .next { t with moves := moves } ∧ t.moves = s.moves) ∧
    (∀ f, step s = .fault f → step { s with moves := moves } = .fault f) ∧
    (∀ r, step s ≠ .refused r)

/-- Rules R101 and R235: an IDLE core that is given a word whose opcode is `0x06` or greater sets `FAULT.ILLCMD` and
changes nothing else. -/
def Obligations.IllegalWordSetsTheFlagOnly : Prop :=
  ∀ (s : State) (op dev val : Byte), s.st = .idle → 6 ≤ op.toNat →
    decode (op ++ dev ++ val) = .illegal op dev val ∧
    exec (.illegal op dev val) s = .next { s with illCmd := true }

/-- Rule R36: no step clears `FAULT.ILLCMD` but a construction, which an IDLE core runs from the host's move. -/
def Obligations.IllegalFlagIsSticky : Prop :=
  ∀ s t : State, step s = .next t → s.illCmd = true → t.illCmd = true ∨
    (s.st = .idle ∧ ∃ txPin controllerId txCount ledPin rest,
      s.moves = .construct txPin controllerId txCount ledPin :: rest)

/-! ## The commands -/

/-- Rule R161 (with R92, R110, R202, R160): OFF, its encoding, its frame, its physical length and its frame condition.
That acceptance, encoding and launch are one step, and that it draws one time, is the model's choice (log entries 4 and
5). -/
def Obligations.OffSendsItsFrame : Prop :=
  ∀ (s : State) (dev val : Byte), s.st = .idle →
    decode (0x00#8 ++ dev ++ val) = .deviceOff dev val ∧
    ∃ t, exec (.deviceOff dev val) s = .next t ∧ AfterCommand s t 0x00#8 dev val 64#7 ∧
      HoldsFrame t (frameSym s.cfg.cid false (.bit false) (dev.toNat % 16) 0) 32 ∧
      SameEntries s t 64 72

/-- Rule R162: ON. That acceptance, encoding and launch are one step, and that it draws one time, is the model's choice
(log entries 4 and 5). -/
def Obligations.OnSendsItsFrame : Prop :=
  ∀ (s : State) (dev val : Byte), s.st = .idle →
    decode (0x01#8 ++ dev ++ val) = .deviceOn dev val ∧
    ∃ t, exec (.deviceOn dev val) s = .next t ∧ AfterCommand s t 0x01#8 dev val 64#7 ∧
      HoldsFrame t (frameSym s.cfg.cid false (.bit true) (dev.toNat % 16) 0) 32 ∧
      SameEntries s t 64 72

/-- Rules R165 and R166: GROUP_ON and GROUP_OFF, whatever operands the word holds. That
acceptance, encoding and launch are one step, and that it draws one time, is the model's choice (log entries 4 and 5). -/
def Obligations.GroupCommandsSendTheirFrames : Prop :=
  ∀ (s : State) (dev val : Byte), s.st = .idle →
    decode (0x03#8 ++ dev ++ val) = .groupOn dev val ∧ decode (0x02#8 ++ dev ++ val) = .groupOff dev val ∧
    (∃ t, exec (.groupOn dev val) s = .next t ∧ AfterCommand s t 0x03#8 dev val 64#7 ∧
      HoldsFrame t (frameSym s.cfg.cid true (.bit true) 0 0) 32 ∧
      SameEntries s t 64 72) ∧
    (∃ t, exec (.groupOff dev val) s = .next t ∧ AfterCommand s t 0x02#8 dev val 64#7 ∧
      HoldsFrame t (frameSym s.cfg.cid true (.bit false) 0 0) 32 ∧
      SameEntries s t 64 72)

/-- Rules R163 and R164: DIM, under both rescale modes; the dim field keeps the low 4 bits of the rescaled level. That
acceptance, encoding and launch are one step, and that it draws one time, is the model's choice (log entries 4 and 5). -/
def Obligations.DimSendsItsFrame : Prop :=
  ∀ (s : State) (dev level : Byte), s.st = .idle →
    decode (0x04#8 ++ dev ++ level) = .dim dev level ∧
    ∃ t, exec (.dim dev level) s = .next t ∧ AfterCommand s t 0x04#8 dev level 72#7 ∧
      (s.params.rescaleMode = .intended →
        HoldsFrame t
          (frameSym s.cfg.cid false .dimSel (dev.toNat % 16) ((level.toNat * 15 + 50) / 100 % 16)) 36) ∧
      (s.params.rescaleMode = .reference →
        HoldsFrame t (frameSym s.cfg.cid false .dimSel (dev.toNat % 16) 0) 36)

/-- Rules R108 and R167: SWITCH leaves the state that OFF, ON or DIM leaves, chosen by its value, but for the opcode
latch, which holds SWITCH's own opcode. -/
def Obligations.SwitchDispatchesOnItsValue : Prop :=
  ∀ (s : State) (dev value : Byte), s.st = .idle →
    decode (0x05#8 ++ dev ++ value) = .switch dev value ∧
    ∃ t, exec (if value = 0#8 then .deviceOff dev value else if value = s.params.valueMax then .deviceOn dev value
        else .dim dev value) s = .next t ∧
      exec (.switch dev value) s = .next { t with op := 0x05#8 }

/-- Rule R170, first sentence: the same command twice in a row, the core being IDLE again in between, leaves the same
buffer both times. -/
def Obligations.SameCommandTwiceSameBuffer : Prop :=
  ∀ (s t u : State) (w : CmdWord), s.st = .idle → exec (decode w) s = .next t →
    exec (decode w) { t with st := .idle } = .next u → u.pb = t.pb

/-- Rule R170: the entries a command transmits depend on the command word, `CFG.CID`, `VALUE_MAX` and `RESCALE_MODE`
alone, and not on what the buffer, or anything else, held before. -/
def Obligations.TransmittedEntriesForgetThePast : Prop :=
  ∀ (s s' t t' : State) (w : CmdWord), s.st = .idle → s'.st = .idle → opField w < 6#8 →
    s.cfg.cid = s'.cfg.cid → s.params = s'.params →
    exec (decode w) s = .next t → exec (decode w) s' = .next t' →
    t.plen = t'.plen ∧ SameEntries t t' 0 t.plen.toNat

/-- Rule R171: OFF and ON to the same device differ in entries 54 and 55 alone, and so do GROUP_OFF and GROUP_ON. -/
def Obligations.OffAndOnDifferInTheCommandFlag : Prop :=
  ∀ (s : State) (d v : Byte), s.st = .idle →
    (∃ t u, exec (.deviceOff d v) s = .next t ∧ exec (.deviceOn d v) s = .next u ∧
      (∀ j < 64, j ≠ 54 → j ≠ 55 → entry t j = entry u j) ∧
      entry t 54 = some 280#16 ∧ entry t 55 = some 1240#16 ∧
      entry u 54 = some 1240#16 ∧ entry u 55 = some 280#16) ∧
    (∃ t u, exec (.groupOff d v) s = .next t ∧ exec (.groupOn d v) s = .next u ∧
      (∀ j < 64, j ≠ 54 → j ≠ 55 → entry t j = entry u j) ∧
      entry t 54 = some 280#16 ∧ entry t 55 = some 1240#16 ∧
      entry u 54 = some 1240#16 ∧ entry u 55 = some 280#16)

/-- Rule R202: with a repetition count of 0 a command writes the buffer exactly as it does with any other count, takes no
lock, drives no pin, appends nothing to the trace and is IDLE again. -/
def Obligations.ZeroCountSendsNothing : Prop :=
  ∀ (s : State) (w : CmdWord), s.st = .idle → opField w < 6#8 → s.cfg.txCount = 0#8 →
    ∃ t, exec (decode w) s = .next t ∧ t.st = .idle ∧ t.lock = s.lock ∧ t.tx = s.tx ∧ t.led = s.led ∧
      t.wave = s.wave ∧ t.seq = s.seq ∧ (∀ j < t.plen.toNat, (entry t j).isSome = true) ∧
      (t.plen = 64#7 ∨ t.plen = 72#7) ∧
      (∀ n : Byte, ∃ u, exec (decode w) { s with cfg := { s.cfg with txCount := n } } = .next u ∧ u.pb = t.pb)

/-! ## BitConverter -/

/-- Rule R130: BITCONV gives the list whose element `k` is `(v div 2^(W-1-k)) mod 2`, the bits at and above `W` make no
difference, and no state changes but the model's own field that receives the list (log entry 9). -/
def Obligations.BitconvGivesTheBits : Prop :=
  ∀ (s : State) (v : BitVec 32) (width : Nat),
    encode (.bitconv v width) = none ∧
    exec (.bitconv v width) s = .next
      { s with answer := .bits ((List.range width).map fun k => decide (v.toNat / 2 ^ (width - 1 - k) % 2 = 1)) } ∧
    exec (.bitconv (BitVec.ofNat 32 (v.toNat % 2 ^ width)) width) s = exec (.bitconv v width) s

/-- Rule R132: BITVAL inverts BITCONV on a value that fits, and on any other up to truncation; BITCONV inverts BITVAL. -/
def Obligations.BitvalInvertsBitconv : Prop :=
  (∀ width v : Nat, v < 2 ^ width → bitval (bitconv v width) = v) ∧
  (∀ v width : Nat, bitval (bitconv v width) = v % 2 ^ width) ∧
  (∀ bs : List Bool, bitconv (bitval bs) bs.length = bs)

/-- Rule R164: RESCALE in both modes, and the table of the smallest level that gives each dim value. No state changes but
the model's own field that receives the number (log entry 9). -/
def Obligations.RescaleFollowsItsTable : Prop :=
  ∀ (s : State) (level : Byte),
    ∃ n : Byte, exec (.rescale level) s = .next { s with answer := .number n } ∧
      (s.params.rescaleMode = .reference → n = 0#8) ∧
      (s.params.rescaleMode = .intended → n.toNat = (level.toNat * 15 + 50) / 100 ∧
        (level.toNat ≤ 100 → n.toNat =
          ([4, 10, 17, 24, 30, 37, 44, 50, 57, 64, 70, 77, 84, 90, 97].filter (· ≤ level.toNat)).length))

/-! ## FrameEncoder -/

/-- Rule R140: SETBIT writes exactly the two entries of its offset, by the wire encoding. -/
def Obligations.SetbitWritesOnePair : Prop :=
  ∀ (s : State) (offset : Fin 36) (value : Bool),
    encode (.setbit offset value) = none ∧
    ∃ t, exec (.setbit offset value) s = .next t ∧ SameButBuffer s t ∧
      entry t (2 * offset.val) = some (if value then 1240#16 else 280#16) ∧
      entry t (2 * offset.val + 1) = some (if value then 280#16 else 1240#16) ∧
      (∀ j, j ≠ 2 * offset.val → j ≠ 2 * offset.val + 1 → entry t j = entry s j)

/-- Rule R141: SETDIMSEL writes 280 to entries 54 and 55, and nothing else. -/
def Obligations.SetdimselWritesTheSelector : Prop :=
  ∀ s : State,
    encode .setdimsel = none ∧
    ∃ t, exec .setdimsel s = .next t ∧ SameButBuffer s t ∧
      entry t 54 = some 280#16 ∧ entry t 55 = some 280#16 ∧
      symAt t 27 = some .dimSel ∧
      (∀ j, j ≠ 54 → j ≠ 55 → entry t j = entry s j)

/-- Rules R142 and R147: SETCTRL writes the controller identity, most significant bit first, to entries 0 to 51 and
nothing else, and the field reads back as the identity. -/
def Obligations.SetctrlFieldReadsBack : Prop :=
  ∀ s : State,
    encode .setctrl = none ∧
    ∃ t, exec .setctrl s = .next t ∧ SameButBuffer s t ∧
      (∀ k < 26, symAt t k = some (.bit (s.cfg.cid.getMsbD k))) ∧
      (∀ j, 52 ≤ j → entry t j = entry s j) ∧
      (∃ bs : List Bool, (List.range 26).map (symAt t) = bs.map (fun b => some (.bit b)) ∧
        bitval bs = s.cfg.cid.toNat)

/-- Rule R143: SETDEV writes `address mod 16` to offsets 28 to 31, entries 56 to 63, and nothing else. -/
def Obligations.SetdevWritesTheDeviceField : Prop :=
  ∀ (s : State) (address : Byte),
    encode (.setdev address) = none ∧
    ∃ t, exec (.setdev address) s = .next t ∧ SameButBuffer s t ∧
      (∀ k < 4, symAt t (28 + k) = some (.bit ((address.toNat % 16).testBit (3 - k)))) ∧
      (∀ j, j < 56 ∨ 64 ≤ j → entry t j = entry s j)

/-- Rule R144: SETDIM writes `level4 mod 16` to offsets 32 to 35, entries 64 to 71, and nothing else. -/
def Obligations.SetdimWritesTheDimField : Prop :=
  ∀ (s : State) (level4 : Byte),
    encode (.setdim level4) = none ∧
    ∃ t, exec (.setdim level4) s = .next t ∧ SameButBuffer s t ∧
      (∀ k < 4, symAt t (32 + k) = some (.bit ((level4.toNat % 16).testBit (3 - k)))) ∧
      (∀ j, j < 64 → entry t j = entry s j)

/-- Rules R78 and R148: the field writes of a command, with either writer of the command flag, give the same buffer in
either order, two by two. -/
def Obligations.FieldWritesCommute : Prop :=
  ∀ (s : State) (g c : Bool) (address level4 : Byte) (flag i j : Instr),
    flag ∈ [Instr.setbit 27 c, .setdimsel] →
    i ∈ [Instr.setctrl, .setbit 26 g, flag, .setdev address, .setdim level4] →
    j ∈ [Instr.setctrl, .setbit 26 g, flag, .setdev address, .setdim level4] → i ≠ j →
    ∃ t u v, exec i s = .next t ∧ exec j s = .next u ∧ exec j t = .next v ∧ exec i u = .next v

/-! ## Transmitter -/

/-- Rule R190: LATCH appends its four events, leaves the pin low and takes 2955 µs, exactly when the lock is held. -/
def Obligations.LatchDrivesItsPair : Prop :=
  ∀ s : State,
    encode .latch = none ∧
    ∃ now draws, exec .latch s = .next { s with
        tx := false, now := now, draws := draws
        wave := s.wave ++ [.tx true, .wait 280#16, .tx false, .wait 2675#16] } ∧
      Elapsed (decide (s.lock = .locked)) s { s with now := now } 2955

/-- Rule R191: PULSE appends its four events with the low period its entry holds, and faults on an entry that nothing
has written. -/
def Obligations.PulseDrivesItsEntry : Prop :=
  ∀ (s : State) (j : Fin 72),
    encode (.pulse j) = none ∧
    (∀ d, entry s j.val = some d → ∃ now draws, exec (.pulse j) s = .next { s with
        tx := false, now := now, draws := draws
        wave := s.wave ++ [.tx true, .wait 270#16, .tx false, .wait d] } ∧
      Elapsed (decide (s.lock = .locked)) s { s with now := now } (270 + d.toNat)) ∧
    (entry s j.val = none → exec (.pulse j) s = .fault .unwrittenRead)

/-- Rules R192, R194 and R205: when the platform answers a lock request and a yield and every entry below `P` is written,
REPETITION appends `Rep(P)`, ends with the pin and an enabled indicator low and the lock released, and takes at least the
sum of its waits. The sequencer stands at LOCKREQ of the same `REP` (log entry 10), and one answer of each kind is spent
(log entry 8). -/
def Obligations.RepetitionAppendsItsTrace : Prop :=
  ∀ (s : State) (p : Fin 73), enough 1 s.lockAnswers = true → enough 1 s.yieldAnswers = true →
    (∀ j < p.val, (entry s j).isSome = true) →
    ∃ now draws, exec (.repetition p) s = .next { s with
        lockAnswers := spend 1 s.lockAnswers, yieldAnswers := spend 1 s.yieldAnswers
        lock := .unlocked, tx := false, led := if indicatorEnabled s then false else s.led
        seq := { s.seq with phase := .lockReq, pidx := 0#7 }
        wave := s.wave ++ repTrace (indicatorEnabled s) (lowPeriods s p.val)
        now := now, draws := draws } ∧
      s.now + waitSum (repTrace (indicatorEnabled s) (lowPeriods s p.val)) ≤ now

/-- Rules R160, R193, R202 and R205: when the platform answers `CFG.TXCOUNT` lock requests and yields and every entry
below `P` is written, TRANSMIT appends `Transmit(P)`, `CFG.TXCOUNT` repetitions, and leaves the core at the sequencer's
start with the lock released, the pin and an enabled indicator low; a count of 0 appends nothing and touches no pin and
no lock. That TRANSMIT run whole ends IDLE, which rule R160 gives to the command, is the model's form of it (log entry
10); the last gap is that of log entry 12. -/
def Obligations.TransmitAppendsItsTrace : Prop :=
  ∀ (s : State) (p : Fin 73), enough s.cfg.txCount.toNat s.lockAnswers = true →
    enough s.cfg.txCount.toNat s.yieldAnswers = true → (∀ j < p.val, (entry s j).isSome = true) →
    ∃ now draws, exec (.transmit p) s = .next { s with
        st := .idle, seq := Seq.start
        lockAnswers := spend s.cfg.txCount.toNat s.lockAnswers
        yieldAnswers := spend s.cfg.txCount.toNat s.yieldAnswers
        lock := if s.cfg.txCount = 0#8 then s.lock else .unlocked
        tx := if s.cfg.txCount = 0#8 then s.tx else false
        led := if s.cfg.txCount ≠ 0#8 ∧ indicatorEnabled s = true then false else s.led
        wave := s.wave ++ transmitTrace (indicatorEnabled s) (lowPeriods s p.val) s.cfg.txCount.toNat
        now := now, draws := draws } ∧
      s.now + waitSum (transmitTrace (indicatorEnabled s) (lowPeriods s p.val) s.cfg.txCount.toNat) ≤ now

/-- Rules R195, R196, R249 and R273: a platform that answers `k` requests and withholds the next leaves TRANSMIT standing
at that request, after `k` whole repetitions: at the lock request of repetition `k` with nothing of it driven, or at the
yield of repetition `k` with all of it driven. That the operation run whole stands so in a next state is the model's
form of it (log entries 8, 10 and 11). -/
def Obligations.TransmitStandsAtTheWithheldRequest : Prop :=
  ∀ (s : State) (p : Fin 73) (k : Nat), k < s.cfg.txCount.toNat → (∀ j < p.val, (entry s j).isSome = true) →
    (s.lockAnswers = some k → enough k s.yieldAnswers = true →
      ∃ now draws, exec (.transmit p) s = .next { s with
        seq := { rep := BitVec.ofNat 8 k, phase := .lockReq, pidx := 0#7 }
        lockAnswers := some 0, yieldAnswers := spend k s.yieldAnswers
        lock := if k = 0 then s.lock else .unlocked
        tx := if k = 0 then s.tx else false
        led := if k ≠ 0 ∧ indicatorEnabled s = true then false else s.led
        wave := s.wave ++ transmitTrace (indicatorEnabled s) (lowPeriods s p.val) k
        now := now, draws := draws }) ∧
    (s.yieldAnswers = some k → enough (k + 1) s.lockAnswers = true →
      ∃ now draws, exec (.transmit p) s = .next { s with
        seq := { rep := BitVec.ofNat 8 k, phase := .yield, pidx := BitVec.ofNat 7 p.val }
        lockAnswers := spend (k + 1) s.lockAnswers, yieldAnswers := some 0
        lock := .unlocked, tx := false, led := if indicatorEnabled s then false else s.led
        wave := s.wave ++ transmitTrace (indicatorEnabled s) (lowPeriods s p.val) k
          ++ (repTrace (indicatorEnabled s) (lowPeriods s p.val)).dropLast
        now := now, draws := draws })

/-- Rules R195, R196 and R249: REPETITION and TRANSMIT of a platform that does not grant the lock stand at LOCKREQ with
nothing appended and no pin driven. That they stand so in a next state is the model's form of it (log entries 10 and
11). -/
def Obligations.NoGrantNoPinEvent : Prop :=
  ∀ (s : State) (p : Fin 73), s.lockAnswers = some 0 →
    exec (.repetition p) s = .next { s with seq := { s.seq with phase := .lockReq, pidx := 0#7 } } ∧
    (s.cfg.txCount ≠ 0#8 → exec (.transmit p) s = .next { s with seq := Seq.start })

/-- Rule R199 refines rules R190 to R193: from the sequencer's start the step machine reaches, in `N × (2P + 10)` steps,
what TRANSMIT run whole gives, whatever the platform answers and whatever the buffer holds. Where a request is withheld
both stand at it, in the forms of log entries 8, 10 and 11. -/
def Obligations.StepTableRefinesTransmit : Prop :=
  ∀ (s : State) (p : Fin 73), s.st = .transmitting → s.seq = Seq.start → s.plen.toNat = p.val → s.cfg.txCount ≠ 0#8 →
    runSteps (s.cfg.txCount.toNat * (2 * p.val + 10)) s = exec (.transmit p) s

/-- Rule R269: a command that an IDLE core accepts runs to its end: after one step and `N` repetitions of the step table
the core is IDLE with the lock released and both pins low, the trace has grown by exactly `Transmit(PLEN)`, and the
buffer, the latches and the flag are as the command's acceptance left them. That the acceptance is one step is the
model's choice (log entry 5); that the platform's answers are counted in the state is log entry 8. -/
def Obligations.CommandRunsToItsEnd : Prop :=
  ∀ (s : State) (w : CmdWord) (rest : List Move), CoreInv s → s.st = .idle → s.moves = .command w :: rest →
    opField w < 6#8 → enough s.cfg.txCount.toNat s.lockAnswers = true →
    enough s.cfg.txCount.toNat s.yieldAnswers = true →
    ∃ t u k, step s = .next t ∧ runSteps k s = .next u ∧
      k = 1 + s.cfg.txCount.toNat * (2 * t.plen.toNat + 10) ∧
      u.st = .idle ∧ u.lock = .unlocked ∧ u.tx = false ∧ u.led = false ∧ u.seq = Seq.start ∧
      u.pb = t.pb ∧ u.plen = t.plen ∧ u.op = t.op ∧ u.dev = t.dev ∧ u.val = t.val ∧ u.illCmd = s.illCmd ∧
      u.cfg = s.cfg ∧ u.moves = rest ∧
      u.wave = s.wave ++ transmitTrace (indicatorEnabled s) (lowPeriods t t.plen.toNat) s.cfg.txCount.toNat

/-- Rules R195 and R249 code 2: a sequencer in LOCKREQ whose platform never grants stays as it is, however long it runs
(log entries 8 and 11). -/
def Obligations.LockNeverGrantedIsStuck : Prop :=
  ∀ (s : State) (k : Nat), s.st = .transmitting → s.seq.phase = .lockReq → s.lockAnswers = some 0 →
    runSteps k s = .next s

/-- Rules R196 and R249 code 3: a sequencer in YIELD whose platform never hands control back stays as it is (log
entries 8 and 11). -/
def Obligations.YieldNeverReturnsIsStuck : Prop :=
  ∀ (s : State) (k : Nat), s.st = .transmitting → s.seq.phase = .yield → s.yieldAnswers = some 0 →
    runSteps k s = .next s

/-- Rule R71: a transmission changes no buffer entry, no latch, no configuration and not its own length. -/
def Obligations.TransmissionKeepsTheBuffer : Prop :=
  ∀ s t : State, s.st = .transmitting → step s = .next t →
    t.pb = s.pb ∧ t.plen = s.plen ∧ t.cfg = s.cfg ∧ t.op = s.op ∧ t.dev = s.dev ∧ t.val = s.val ∧ t.illCmd = s.illCmd

/-- Rule R199, codes 0, 9, 10 and 11: the lock, the gap and the yield. -/
def Obligations.LockGapAndYieldRows : Prop :=
  ∀ s : State, s.st = .transmitting →
    (s.seq.phase = .lockReq → enough 1 s.lockAnswers = true → ∃ now draws, s.now ≤ now ∧ step s = .next { s with
      lockAnswers := spend 1 s.lockAnswers
      lock := .locked, seq := { s.seq with phase := .ledOn }, wave := s.wave ++ [.enter], now := now, draws := draws }) ∧
    (s.seq.phase = .unlock → step s = .next { s with
      lock := .unlocked, seq := { s.seq with phase := .gap }, wave := s.wave ++ [.leave] }) ∧
    (s.seq.phase = .gap → s.lock = .unlocked → ∃ now draws, s.now + 9500 ≤ now ∧ step s = .next { s with
      seq := { s.seq with phase := .yield }, wave := s.wave ++ [.wait 9500#16], now := now, draws := draws }) ∧
    (s.seq.phase = .yield → enough 1 s.yieldAnswers = true → ∃ now draws, s.now ≤ now ∧ step s = .next { s with
      yieldAnswers := spend 1 s.yieldAnswers
      st := if s.seq.rep + 1#8 = s.cfg.txCount then .idle else .transmitting
      seq := if s.seq.rep + 1#8 = s.cfg.txCount then Seq.start
        else { rep := s.seq.rep + 1#8, phase := .lockReq, pidx := 0#7 }
      wave := s.wave ++ [.yield], now := now, draws := draws })

/-- Rule R199, codes 1 to 8, in the Locked window: each row's drive, its exact wait (rule R197) and its next phase. -/
def Obligations.LockedRows : Prop :=
  ∀ s : State, s.st = .transmitting → s.lock = .locked →
    (s.seq.phase = .ledOn → step s = .next { s with
      led := if s.cfg.ledPin ≠ 0#8 then true else s.led
      wave := s.wave ++ (if s.cfg.ledPin ≠ 0#8 then [.led true] else [])
      seq := { s.seq with phase := .preHi } }) ∧
    (s.seq.phase = .preHi → step s = .next { s with
      tx := true, wave := s.wave ++ [.tx true, .wait 280#16], now := s.now + 280
      seq := { s.seq with phase := .preLo } }) ∧
    (s.seq.phase = .preLo → step s = .next { s with
      tx := false, wave := s.wave ++ [.tx false, .wait 2675#16], now := s.now + 2675
      seq := { s.seq with phase := if s.plen = 0#7 then .postHi else .pulseHi, pidx := 0#7 } }) ∧
    (s.seq.phase = .pulseHi → step s = .next { s with
      tx := true, wave := s.wave ++ [.tx true, .wait 270#16], now := s.now + 270
      seq := { s.seq with phase := .pulseLo } }) ∧
    (∀ d, s.seq.phase = .pulseLo → entry s s.seq.pidx.toNat = some d → step s = .next { s with
      tx := false, wave := s.wave ++ [.tx false, .wait d], now := s.now + d.toNat
      seq := { s.seq with
        phase := if s.seq.pidx + 1#7 = s.plen then .postHi else .pulseHi, pidx := s.seq.pidx + 1#7 } }) ∧
    (s.seq.phase = .postHi → step s = .next { s with
      tx := true, wave := s.wave ++ [.tx true, .wait 280#16], now := s.now + 280
      seq := { s.seq with phase := .postLo } }) ∧
    (s.seq.phase = .postLo → step s = .next { s with
      tx := false, wave := s.wave ++ [.tx false, .wait 2675#16], now := s.now + 2675
      seq := { s.seq with phase := .ledOff } }) ∧
    (s.seq.phase = .ledOff → step s = .next { s with
      led := if s.cfg.ledPin ≠ 0#8 then false else s.led
      wave := s.wave ++ (if s.cfg.ledPin ≠ 0#8 then [.led false] else [])
      seq := { s.seq with phase := .unlock } })

/-- Rules R197 and R200: the Locked window of a buffer that holds an `F32` frame lasts exactly 71830 µs, and that of one
that holds an `F36` frame exactly 79110 µs, whatever the bits are. -/
def Obligations.LockedWindowIsExact : Prop :=
  ∀ s : State, s.st = .transmitting → s.lock = .locked → s.seq.phase = .ledOn →
    (∀ f : Nat → Bool, s.plen = 64#7 → HoldsFrame s (fun i => .bit (f i)) 32 →
      ∃ t, runSteps (2 * 64 + 6) s = .next t ∧
        t.seq.phase = .unlock ∧ t.lock = .locked ∧ t.now = s.now + 71830) ∧
    (∀ f : Nat → Bool, s.plen = 72#7 → HoldsFrame s (fun i => if i = 27 then .dimSel else .bit (f i)) 36 →
      ∃ t, runSteps (2 * 72 + 6) s = .next t ∧
        t.seq.phase = .unlock ∧ t.lock = .locked ∧ t.now = s.now + 79110)

/-- Rule R200: what a transmission of the machine appends, whatever the bits are: the waits sum to `N` times 81330 µs for
an `F32` frame and `N` times 88610 µs for an `F36` frame, the elapsed time grows by at least that, and there are 66 or 74
rising edges of `TX` a repetition. The platform answers every request (log entry 8); the last gap is that of log entry
12. -/
def Obligations.TransmissionDurations : Prop :=
  ∀ (s : State) (f : Nat → Bool), enough s.cfg.txCount.toNat s.lockAnswers = true →
    enough s.cfg.txCount.toNat s.yieldAnswers = true →
    (HoldsFrame s (fun i => .bit (f i)) 32 → ∃ t es, exec (.transmit 64) s = .next t ∧ t.wave = s.wave ++ es ∧
      waitSum es = s.cfg.txCount.toNat * 81330 ∧ s.now + s.cfg.txCount.toNat * 81330 ≤ t.now ∧
      es.count (.tx true) = s.cfg.txCount.toNat * 66) ∧
    (HoldsFrame s (fun i => if i = 27 then .dimSel else .bit (f i)) 36 →
      ∃ t es, exec (.transmit 72) s = .next t ∧ t.wave = s.wave ++ es ∧
      waitSum es = s.cfg.txCount.toNat * 88610 ∧ s.now + s.cfg.txCount.toNat * 88610 ≤ t.now ∧
      es.count (.tx true) = s.cfg.txCount.toNat * 74)

/-- Rule R205: the number of events that REPETITION of `P` pulses appends, `4P + 12` with the indicator disabled and
`4P + 14` with it enabled, when the platform answers both requests and every entry below `P` is written. -/
def Obligations.RepetitionEventCount : Prop :=
  ∀ (s : State) (p : Fin 73), enough 1 s.lockAnswers = true → enough 1 s.yieldAnswers = true →
    (∀ j < p.val, (entry s j).isSome = true) →
    ∃ t, exec (.repetition p) s = .next t ∧
      t.wave.length = s.wave.length + (if indicatorEnabled s then 4 * p.val + 14 else 4 * p.val + 12)

/-- Rules R28, R29 and R243: the platform output `CFG.TXPIN` carries `TX`, an enabled `CFG.LEDPIN` carries `LED`, a
disabled indicator stays low (rule R41), and the core drives no other output, output 0 included when the indicator is
disabled and `CFG.TXPIN` is another. -/
def Obligations.OutputsFollowTheirPins : Prop :=
  ∀ s : State, CoreInv s →
    drivenLevel s s.cfg.txPin = some s.tx ∧
    (s.cfg.ledPin ≠ 0#8 → drivenLevel s s.cfg.ledPin = some s.led) ∧
    (s.cfg.ledPin = 0#8 → s.led = false) ∧
    (∀ pin, pin ≠ s.cfg.txPin → (s.cfg.ledPin = 0#8 ∨ pin ≠ s.cfg.ledPin) → drivenLevel s pin = none)
end

