-- ==== Sys2Proof/Laws/Operands.lean ====
section
/-! SUPPORT. BITCONV, BITVAL and RESCALE (rules R130 to R132, R164). -/

namespace Sys2Proof.Machine

@[simp] theorem bitconv_length (v width : Nat) : (bitconv v width).length = width := by simp [bitconv]

theorem bitconv_getElem (v width k : Nat) (h : k < (bitconv v width).length) :
    (bitconv v width)[k] = v.testBit (width - 1 - k) := by simp [bitconv]

/-- One more bit at the low end: BITCONV of `W + 1` bits is that of the upper `W`, then bit 0. -/
theorem bitconv_succ (v width : Nat) : bitconv v (width + 1) = bitconv (v / 2) width ++ [v.testBit 0] := by
  refine List.ext_getElem (by simp) fun k h _ => ?_
  rw [bitconv_length] at h
  rw [bitconv_getElem, List.getElem_append]
  split
  · next hk =>
    rw [bitconv_length] at hk
    rw [bitconv_getElem, Nat.testBit_div_two]
    congr 1; omega
  · next hk =>
    rw [bitconv_length] at hk
    have : k = width := by omega
    simp [this]

theorem bitval_append_bit (bs : List Bool) (b : Bool) : bitval (bs ++ [b]) = 2 * bitval bs + b.toNat := by
  simp [bitval]

/-- BITVAL of BITCONV is the value, truncated (rule R132). -/
theorem bitval_bitconv_mod (v width : Nat) : bitval (bitconv v width) = v % 2 ^ width := by
  induction width generalizing v with
  | zero => simp [bitconv, bitval, Nat.mod_one]
  | succ n ih =>
    rw [bitconv_succ, bitval_append_bit, ih, pow_succ, Nat.mul_comm (2 ^ n) 2, Nat.mod_mul]
    have : v.testBit 0 = decide (v % 2 = 1) := by simp [Nat.testBit_zero]
    rw [this]
    rcases Nat.mod_two_eq_zero_or_one v with h | h <;> simp [h, Nat.add_comm]

/-- BITCONV drops the bits at and above its width (rule R130). -/
theorem bitconv_mod (v width : Nat) : bitconv (v % 2 ^ width) width = bitconv v width := by
  refine List.ext_getElem (by simp) fun k h _ => ?_
  rw [bitconv_length] at h
  rw [bitconv_getElem, bitconv_getElem, Nat.testBit_mod_two_pow]
  simp [show width - 1 - k < width by omega]

/-- RESCALE never exceeds 38 (rule R133), so its 8 bits hold it exactly. -/
theorem rescale_intended_toNat (level : Byte) : (rescale .intended level).toNat = (level.toNat * 15 + 50) / 100 := by
  have := level.isLt
  simp only [rescale, BitVec.toNat_ofNat]
  omega

@[simp] theorem rescale_reference (level : Byte) : rescale .reference level = 0#8 := rfl

end Sys2Proof.Machine
end

