-- ==== Sys2Proof/Laws/State.lean ====
section
/-! SUPPORT. What each primitive operation of Machine/Ops.lean does to each field of the state. -/

namespace Sys2Proof.Machine

variable (s : State)

@[simp] theorem emit_pb (e : Event) : (emit e s).pb = s.pb := rfl
@[simp] theorem emit_cfg (e : Event) : (emit e s).cfg = s.cfg := rfl
@[simp] theorem emit_st (e : Event) : (emit e s).st = s.st := rfl
@[simp] theorem emit_lock (e : Event) : (emit e s).lock = s.lock := rfl
@[simp] theorem emit_seq (e : Event) : (emit e s).seq = s.seq := rfl
@[simp] theorem emit_plen (e : Event) : (emit e s).plen = s.plen := rfl
@[simp] theorem emit_op (e : Event) : (emit e s).op = s.op := rfl
@[simp] theorem emit_dev (e : Event) : (emit e s).dev = s.dev := rfl
@[simp] theorem emit_val (e : Event) : (emit e s).val = s.val := rfl
@[simp] theorem emit_tx (e : Event) : (emit e s).tx = s.tx := rfl
@[simp] theorem emit_led (e : Event) : (emit e s).led = s.led := rfl
@[simp] theorem emit_illCmd (e : Event) : (emit e s).illCmd = s.illCmd := rfl
@[simp] theorem emit_wave (e : Event) : (emit e s).wave = s.wave ++ [e] := rfl
@[simp] theorem emit_moves (e : Event) : (emit e s).moves = s.moves := rfl
@[simp] theorem emit_lockAnswers (e : Event) : (emit e s).lockAnswers = s.lockAnswers := rfl
@[simp] theorem emit_yieldAnswers (e : Event) : (emit e s).yieldAnswers = s.yieldAnswers := rfl
@[simp] theorem emit_params (e : Event) : (emit e s).params = s.params := rfl
@[simp] theorem emit_now (e : Event) : (emit e s).now = s.now := rfl
@[simp] theorem emit_draws (e : Event) : (emit e s).draws = s.draws := rfl
@[simp] theorem emit_answer (e : Event) : (emit e s).answer = s.answer := rfl

@[simp] theorem pbWrite_pb (j : Nat) (v : Micros) : (pbWrite j v s).pb = s.pb.setIfInBounds j (some v) := rfl
@[simp] theorem pbWrite_cfg (j : Nat) (v : Micros) : (pbWrite j v s).cfg = s.cfg := rfl
@[simp] theorem pbWrite_st (j : Nat) (v : Micros) : (pbWrite j v s).st = s.st := rfl
@[simp] theorem pbWrite_lock (j : Nat) (v : Micros) : (pbWrite j v s).lock = s.lock := rfl
@[simp] theorem pbWrite_seq (j : Nat) (v : Micros) : (pbWrite j v s).seq = s.seq := rfl
@[simp] theorem pbWrite_plen (j : Nat) (v : Micros) : (pbWrite j v s).plen = s.plen := rfl
@[simp] theorem pbWrite_op (j : Nat) (v : Micros) : (pbWrite j v s).op = s.op := rfl
@[simp] theorem pbWrite_dev (j : Nat) (v : Micros) : (pbWrite j v s).dev = s.dev := rfl
@[simp] theorem pbWrite_val (j : Nat) (v : Micros) : (pbWrite j v s).val = s.val := rfl
@[simp] theorem pbWrite_tx (j : Nat) (v : Micros) : (pbWrite j v s).tx = s.tx := rfl
@[simp] theorem pbWrite_led (j : Nat) (v : Micros) : (pbWrite j v s).led = s.led := rfl
@[simp] theorem pbWrite_illCmd (j : Nat) (v : Micros) : (pbWrite j v s).illCmd = s.illCmd := rfl
@[simp] theorem pbWrite_wave (j : Nat) (v : Micros) : (pbWrite j v s).wave = s.wave := rfl
@[simp] theorem pbWrite_moves (j : Nat) (v : Micros) : (pbWrite j v s).moves = s.moves := rfl
@[simp] theorem pbWrite_lockAnswers (j : Nat) (v : Micros) : (pbWrite j v s).lockAnswers = s.lockAnswers := rfl
@[simp] theorem pbWrite_yieldAnswers (j : Nat) (v : Micros) : (pbWrite j v s).yieldAnswers = s.yieldAnswers := rfl
@[simp] theorem pbWrite_params (j : Nat) (v : Micros) : (pbWrite j v s).params = s.params := rfl
@[simp] theorem pbWrite_now (j : Nat) (v : Micros) : (pbWrite j v s).now = s.now := rfl
@[simp] theorem pbWrite_draws (j : Nat) (v : Micros) : (pbWrite j v s).draws = s.draws := rfl
@[simp] theorem pbWrite_answer (j : Nat) (v : Micros) : (pbWrite j v s).answer = s.answer := rfl

@[simp] theorem driveTx_pb (b : Bool) : (driveTx b s).pb = s.pb := rfl
@[simp] theorem driveTx_cfg (b : Bool) : (driveTx b s).cfg = s.cfg := rfl
@[simp] theorem driveTx_st (b : Bool) : (driveTx b s).st = s.st := rfl
@[simp] theorem driveTx_lock (b : Bool) : (driveTx b s).lock = s.lock := rfl
@[simp] theorem driveTx_seq (b : Bool) : (driveTx b s).seq = s.seq := rfl
@[simp] theorem driveTx_plen (b : Bool) : (driveTx b s).plen = s.plen := rfl
@[simp] theorem driveTx_op (b : Bool) : (driveTx b s).op = s.op := rfl
@[simp] theorem driveTx_dev (b : Bool) : (driveTx b s).dev = s.dev := rfl
@[simp] theorem driveTx_val (b : Bool) : (driveTx b s).val = s.val := rfl
@[simp] theorem driveTx_tx (b : Bool) : (driveTx b s).tx = b := rfl
@[simp] theorem driveTx_led (b : Bool) : (driveTx b s).led = s.led := rfl
@[simp] theorem driveTx_illCmd (b : Bool) : (driveTx b s).illCmd = s.illCmd := rfl
@[simp] theorem driveTx_wave (b : Bool) : (driveTx b s).wave = s.wave ++ [.tx b] := rfl
@[simp] theorem driveTx_moves (b : Bool) : (driveTx b s).moves = s.moves := rfl
@[simp] theorem driveTx_lockAnswers (b : Bool) : (driveTx b s).lockAnswers = s.lockAnswers := rfl
@[simp] theorem driveTx_yieldAnswers (b : Bool) : (driveTx b s).yieldAnswers = s.yieldAnswers := rfl
@[simp] theorem driveTx_params (b : Bool) : (driveTx b s).params = s.params := rfl
@[simp] theorem driveTx_now (b : Bool) : (driveTx b s).now = s.now := rfl
@[simp] theorem driveTx_draws (b : Bool) : (driveTx b s).draws = s.draws := rfl
@[simp] theorem driveTx_answer (b : Bool) : (driveTx b s).answer = s.answer := rfl

@[simp] theorem driveLed_pb (b : Bool) : (driveLed b s).pb = s.pb := rfl
@[simp] theorem driveLed_cfg (b : Bool) : (driveLed b s).cfg = s.cfg := rfl
@[simp] theorem driveLed_st (b : Bool) : (driveLed b s).st = s.st := rfl
@[simp] theorem driveLed_lock (b : Bool) : (driveLed b s).lock = s.lock := rfl
@[simp] theorem driveLed_seq (b : Bool) : (driveLed b s).seq = s.seq := rfl
@[simp] theorem driveLed_plen (b : Bool) : (driveLed b s).plen = s.plen := rfl
@[simp] theorem driveLed_op (b : Bool) : (driveLed b s).op = s.op := rfl
@[simp] theorem driveLed_dev (b : Bool) : (driveLed b s).dev = s.dev := rfl
@[simp] theorem driveLed_val (b : Bool) : (driveLed b s).val = s.val := rfl
@[simp] theorem driveLed_tx (b : Bool) : (driveLed b s).tx = s.tx := rfl
@[simp] theorem driveLed_led (b : Bool) : (driveLed b s).led = b := rfl
@[simp] theorem driveLed_illCmd (b : Bool) : (driveLed b s).illCmd = s.illCmd := rfl
@[simp] theorem driveLed_wave (b : Bool) : (driveLed b s).wave = s.wave ++ [.led b] := rfl
@[simp] theorem driveLed_moves (b : Bool) : (driveLed b s).moves = s.moves := rfl
@[simp] theorem driveLed_lockAnswers (b : Bool) : (driveLed b s).lockAnswers = s.lockAnswers := rfl
@[simp] theorem driveLed_yieldAnswers (b : Bool) : (driveLed b s).yieldAnswers = s.yieldAnswers := rfl
@[simp] theorem driveLed_params (b : Bool) : (driveLed b s).params = s.params := rfl
@[simp] theorem driveLed_now (b : Bool) : (driveLed b s).now = s.now := rfl
@[simp] theorem driveLed_draws (b : Bool) : (driveLed b s).draws = s.draws := rfl
@[simp] theorem driveLed_answer (b : Bool) : (driveLed b s).answer = s.answer := rfl

@[simp] theorem granted_pb : (granted s).pb = s.pb := rfl
@[simp] theorem granted_cfg : (granted s).cfg = s.cfg := rfl
@[simp] theorem granted_st : (granted s).st = s.st := rfl
@[simp] theorem granted_lock : (granted s).lock = .locked := rfl
@[simp] theorem granted_seq : (granted s).seq = s.seq := rfl
@[simp] theorem granted_plen : (granted s).plen = s.plen := rfl
@[simp] theorem granted_op : (granted s).op = s.op := rfl
@[simp] theorem granted_dev : (granted s).dev = s.dev := rfl
@[simp] theorem granted_val : (granted s).val = s.val := rfl
@[simp] theorem granted_tx : (granted s).tx = s.tx := rfl
@[simp] theorem granted_led : (granted s).led = s.led := rfl
@[simp] theorem granted_illCmd : (granted s).illCmd = s.illCmd := rfl
@[simp] theorem granted_wave : (granted s).wave = s.wave ++ [.enter] := rfl
@[simp] theorem granted_moves : (granted s).moves = s.moves := rfl
@[simp] theorem granted_lockAnswers : (granted s).lockAnswers = spend 1 s.lockAnswers := rfl
@[simp] theorem granted_yieldAnswers : (granted s).yieldAnswers = s.yieldAnswers := rfl
@[simp] theorem granted_params : (granted s).params = s.params := rfl
@[simp] theorem granted_now : (granted s).now = s.now + Config.grantLatency s.draws := rfl
@[simp] theorem granted_draws : (granted s).draws = s.draws + 1 := rfl
@[simp] theorem granted_answer : (granted s).answer = s.answer := rfl

@[simp] theorem leave_pb : (leave s).pb = s.pb := rfl
@[simp] theorem leave_cfg : (leave s).cfg = s.cfg := rfl
@[simp] theorem leave_st : (leave s).st = s.st := rfl
@[simp] theorem leave_lock : (leave s).lock = .unlocked := rfl
@[simp] theorem leave_seq : (leave s).seq = s.seq := rfl
@[simp] theorem leave_plen : (leave s).plen = s.plen := rfl
@[simp] theorem leave_op : (leave s).op = s.op := rfl
@[simp] theorem leave_dev : (leave s).dev = s.dev := rfl
@[simp] theorem leave_val : (leave s).val = s.val := rfl
@[simp] theorem leave_tx : (leave s).tx = s.tx := rfl
@[simp] theorem leave_led : (leave s).led = s.led := rfl
@[simp] theorem leave_illCmd : (leave s).illCmd = s.illCmd := rfl
@[simp] theorem leave_wave : (leave s).wave = s.wave ++ [.leave] := rfl
@[simp] theorem leave_moves : (leave s).moves = s.moves := rfl
@[simp] theorem leave_lockAnswers : (leave s).lockAnswers = s.lockAnswers := rfl
@[simp] theorem leave_yieldAnswers : (leave s).yieldAnswers = s.yieldAnswers := rfl
@[simp] theorem leave_params : (leave s).params = s.params := rfl
@[simp] theorem leave_now : (leave s).now = s.now := rfl
@[simp] theorem leave_draws : (leave s).draws = s.draws := rfl
@[simp] theorem leave_answer : (leave s).answer = s.answer := rfl

@[simp] theorem yielded_pb : (yielded s).pb = s.pb := rfl
@[simp] theorem yielded_cfg : (yielded s).cfg = s.cfg := rfl
@[simp] theorem yielded_st : (yielded s).st = s.st := rfl
@[simp] theorem yielded_lock : (yielded s).lock = s.lock := rfl
@[simp] theorem yielded_seq : (yielded s).seq = s.seq := rfl
@[simp] theorem yielded_plen : (yielded s).plen = s.plen := rfl
@[simp] theorem yielded_op : (yielded s).op = s.op := rfl
@[simp] theorem yielded_dev : (yielded s).dev = s.dev := rfl
@[simp] theorem yielded_val : (yielded s).val = s.val := rfl
@[simp] theorem yielded_tx : (yielded s).tx = s.tx := rfl
@[simp] theorem yielded_led : (yielded s).led = s.led := rfl
@[simp] theorem yielded_illCmd : (yielded s).illCmd = s.illCmd := rfl
@[simp] theorem yielded_wave : (yielded s).wave = s.wave ++ [.yield] := rfl
@[simp] theorem yielded_moves : (yielded s).moves = s.moves := rfl
@[simp] theorem yielded_lockAnswers : (yielded s).lockAnswers = s.lockAnswers := rfl
@[simp] theorem yielded_yieldAnswers : (yielded s).yieldAnswers = spend 1 s.yieldAnswers := rfl
@[simp] theorem yielded_params : (yielded s).params = s.params := rfl
@[simp] theorem yielded_now : (yielded s).now = s.now + Config.yieldTime s.draws := rfl
@[simp] theorem yielded_draws : (yielded s).draws = s.draws + 1 := rfl
@[simp] theorem yielded_answer : (yielded s).answer = s.answer := rfl

@[simp] theorem setSeq_pb (rep : Byte) (phase : Phase) (pidx : PulseIndex) : (setSeq rep phase pidx s).pb = s.pb := rfl
@[simp] theorem setSeq_cfg (rep : Byte) (phase : Phase) (pidx : PulseIndex) : (setSeq rep phase pidx s).cfg = s.cfg := rfl
@[simp] theorem setSeq_st (rep : Byte) (phase : Phase) (pidx : PulseIndex) : (setSeq rep phase pidx s).st = s.st := rfl
@[simp] theorem setSeq_lock (rep : Byte) (phase : Phase) (pidx : PulseIndex) : (setSeq rep phase pidx s).lock = s.lock := rfl
@[simp] theorem setSeq_seq (rep : Byte) (phase : Phase) (pidx : PulseIndex) : (setSeq rep phase pidx s).seq = { rep := rep, phase := phase, pidx := pidx } := rfl
@[simp] theorem setSeq_plen (rep : Byte) (phase : Phase) (pidx : PulseIndex) : (setSeq rep phase pidx s).plen = s.plen := rfl
@[simp] theorem setSeq_op (rep : Byte) (phase : Phase) (pidx : PulseIndex) : (setSeq rep phase pidx s).op = s.op := rfl
@[simp] theorem setSeq_dev (rep : Byte) (phase : Phase) (pidx : PulseIndex) : (setSeq rep phase pidx s).dev = s.dev := rfl
@[simp] theorem setSeq_val (rep : Byte) (phase : Phase) (pidx : PulseIndex) : (setSeq rep phase pidx s).val = s.val := rfl
@[simp] theorem setSeq_tx (rep : Byte) (phase : Phase) (pidx : PulseIndex) : (setSeq rep phase pidx s).tx = s.tx := rfl
@[simp] theorem setSeq_led (rep : Byte) (phase : Phase) (pidx : PulseIndex) : (setSeq rep phase pidx s).led = s.led := rfl
@[simp] theorem setSeq_illCmd (rep : Byte) (phase : Phase) (pidx : PulseIndex) : (setSeq rep phase pidx s).illCmd = s.illCmd := rfl
@[simp] theorem setSeq_wave (rep : Byte) (phase : Phase) (pidx : PulseIndex) : (setSeq rep phase pidx s).wave = s.wave := rfl
@[simp] theorem setSeq_moves (rep : Byte) (phase : Phase) (pidx : PulseIndex) : (setSeq rep phase pidx s).moves = s.moves := rfl
@[simp] theorem setSeq_lockAnswers (rep : Byte) (phase : Phase) (pidx : PulseIndex) : (setSeq rep phase pidx s).lockAnswers = s.lockAnswers := rfl
@[simp] theorem setSeq_yieldAnswers (rep : Byte) (phase : Phase) (pidx : PulseIndex) : (setSeq rep phase pidx s).yieldAnswers = s.yieldAnswers := rfl
@[simp] theorem setSeq_params (rep : Byte) (phase : Phase) (pidx : PulseIndex) : (setSeq rep phase pidx s).params = s.params := rfl
@[simp] theorem setSeq_now (rep : Byte) (phase : Phase) (pidx : PulseIndex) : (setSeq rep phase pidx s).now = s.now := rfl
@[simp] theorem setSeq_draws (rep : Byte) (phase : Phase) (pidx : PulseIndex) : (setSeq rep phase pidx s).draws = s.draws := rfl
@[simp] theorem setSeq_answer (rep : Byte) (phase : Phase) (pidx : PulseIndex) : (setSeq rep phase pidx s).answer = s.answer := rfl

@[simp] theorem goPhase_pb (phase : Phase) : (goPhase phase s).pb = s.pb := rfl
@[simp] theorem goPhase_cfg (phase : Phase) : (goPhase phase s).cfg = s.cfg := rfl
@[simp] theorem goPhase_st (phase : Phase) : (goPhase phase s).st = s.st := rfl
@[simp] theorem goPhase_lock (phase : Phase) : (goPhase phase s).lock = s.lock := rfl
@[simp] theorem goPhase_seq (phase : Phase) : (goPhase phase s).seq = { s.seq with phase := phase } := rfl
@[simp] theorem goPhase_plen (phase : Phase) : (goPhase phase s).plen = s.plen := rfl
@[simp] theorem goPhase_op (phase : Phase) : (goPhase phase s).op = s.op := rfl
@[simp] theorem goPhase_dev (phase : Phase) : (goPhase phase s).dev = s.dev := rfl
@[simp] theorem goPhase_val (phase : Phase) : (goPhase phase s).val = s.val := rfl
@[simp] theorem goPhase_tx (phase : Phase) : (goPhase phase s).tx = s.tx := rfl
@[simp] theorem goPhase_led (phase : Phase) : (goPhase phase s).led = s.led := rfl
@[simp] theorem goPhase_illCmd (phase : Phase) : (goPhase phase s).illCmd = s.illCmd := rfl
@[simp] theorem goPhase_wave (phase : Phase) : (goPhase phase s).wave = s.wave := rfl
@[simp] theorem goPhase_moves (phase : Phase) : (goPhase phase s).moves = s.moves := rfl
@[simp] theorem goPhase_lockAnswers (phase : Phase) : (goPhase phase s).lockAnswers = s.lockAnswers := rfl
@[simp] theorem goPhase_yieldAnswers (phase : Phase) : (goPhase phase s).yieldAnswers = s.yieldAnswers := rfl
@[simp] theorem goPhase_params (phase : Phase) : (goPhase phase s).params = s.params := rfl
@[simp] theorem goPhase_now (phase : Phase) : (goPhase phase s).now = s.now := rfl
@[simp] theorem goPhase_draws (phase : Phase) : (goPhase phase s).draws = s.draws := rfl
@[simp] theorem goPhase_answer (phase : Phase) : (goPhase phase s).answer = s.answer := rfl

@[simp] theorem writePair_cfg (offset : Nat) (pair : Micros × Micros) : (writePair offset pair s).cfg = s.cfg := rfl
@[simp] theorem writePair_st (offset : Nat) (pair : Micros × Micros) : (writePair offset pair s).st = s.st := rfl
@[simp] theorem writePair_lock (offset : Nat) (pair : Micros × Micros) : (writePair offset pair s).lock = s.lock := rfl
@[simp] theorem writePair_seq (offset : Nat) (pair : Micros × Micros) : (writePair offset pair s).seq = s.seq := rfl
@[simp] theorem writePair_plen (offset : Nat) (pair : Micros × Micros) : (writePair offset pair s).plen = s.plen := rfl
@[simp] theorem writePair_op (offset : Nat) (pair : Micros × Micros) : (writePair offset pair s).op = s.op := rfl
@[simp] theorem writePair_dev (offset : Nat) (pair : Micros × Micros) : (writePair offset pair s).dev = s.dev := rfl
@[simp] theorem writePair_val (offset : Nat) (pair : Micros × Micros) : (writePair offset pair s).val = s.val := rfl
@[simp] theorem writePair_tx (offset : Nat) (pair : Micros × Micros) : (writePair offset pair s).tx = s.tx := rfl
@[simp] theorem writePair_led (offset : Nat) (pair : Micros × Micros) : (writePair offset pair s).led = s.led := rfl
@[simp] theorem writePair_illCmd (offset : Nat) (pair : Micros × Micros) : (writePair offset pair s).illCmd = s.illCmd := rfl
@[simp] theorem writePair_wave (offset : Nat) (pair : Micros × Micros) : (writePair offset pair s).wave = s.wave := rfl
@[simp] theorem writePair_moves (offset : Nat) (pair : Micros × Micros) : (writePair offset pair s).moves = s.moves := rfl
@[simp] theorem writePair_lockAnswers (offset : Nat) (pair : Micros × Micros) : (writePair offset pair s).lockAnswers = s.lockAnswers := rfl
@[simp] theorem writePair_yieldAnswers (offset : Nat) (pair : Micros × Micros) : (writePair offset pair s).yieldAnswers = s.yieldAnswers := rfl
@[simp] theorem writePair_params (offset : Nat) (pair : Micros × Micros) : (writePair offset pair s).params = s.params := rfl
@[simp] theorem writePair_now (offset : Nat) (pair : Micros × Micros) : (writePair offset pair s).now = s.now := rfl
@[simp] theorem writePair_draws (offset : Nat) (pair : Micros × Micros) : (writePair offset pair s).draws = s.draws := rfl
@[simp] theorem writePair_answer (offset : Nat) (pair : Micros × Micros) : (writePair offset pair s).answer = s.answer := rfl

@[simp] theorem setBit_cfg (offset : Nat) (value : Bool) : (setBit offset value s).cfg = s.cfg := rfl
@[simp] theorem setBit_st (offset : Nat) (value : Bool) : (setBit offset value s).st = s.st := rfl
@[simp] theorem setBit_lock (offset : Nat) (value : Bool) : (setBit offset value s).lock = s.lock := rfl
@[simp] theorem setBit_seq (offset : Nat) (value : Bool) : (setBit offset value s).seq = s.seq := rfl
@[simp] theorem setBit_plen (offset : Nat) (value : Bool) : (setBit offset value s).plen = s.plen := rfl
@[simp] theorem setBit_op (offset : Nat) (value : Bool) : (setBit offset value s).op = s.op := rfl
@[simp] theorem setBit_dev (offset : Nat) (value : Bool) : (setBit offset value s).dev = s.dev := rfl
@[simp] theorem setBit_val (offset : Nat) (value : Bool) : (setBit offset value s).val = s.val := rfl
@[simp] theorem setBit_tx (offset : Nat) (value : Bool) : (setBit offset value s).tx = s.tx := rfl
@[simp] theorem setBit_led (offset : Nat) (value : Bool) : (setBit offset value s).led = s.led := rfl
@[simp] theorem setBit_illCmd (offset : Nat) (value : Bool) : (setBit offset value s).illCmd = s.illCmd := rfl
@[simp] theorem setBit_wave (offset : Nat) (value : Bool) : (setBit offset value s).wave = s.wave := rfl
@[simp] theorem setBit_moves (offset : Nat) (value : Bool) : (setBit offset value s).moves = s.moves := rfl
@[simp] theorem setBit_lockAnswers (offset : Nat) (value : Bool) : (setBit offset value s).lockAnswers = s.lockAnswers := rfl
@[simp] theorem setBit_yieldAnswers (offset : Nat) (value : Bool) : (setBit offset value s).yieldAnswers = s.yieldAnswers := rfl
@[simp] theorem setBit_params (offset : Nat) (value : Bool) : (setBit offset value s).params = s.params := rfl
@[simp] theorem setBit_now (offset : Nat) (value : Bool) : (setBit offset value s).now = s.now := rfl
@[simp] theorem setBit_draws (offset : Nat) (value : Bool) : (setBit offset value s).draws = s.draws := rfl
@[simp] theorem setBit_answer (offset : Nat) (value : Bool) : (setBit offset value s).answer = s.answer := rfl

@[simp] theorem setDimSel_cfg : (setDimSel s).cfg = s.cfg := rfl
@[simp] theorem setDimSel_st : (setDimSel s).st = s.st := rfl
@[simp] theorem setDimSel_lock : (setDimSel s).lock = s.lock := rfl
@[simp] theorem setDimSel_seq : (setDimSel s).seq = s.seq := rfl
@[simp] theorem setDimSel_plen : (setDimSel s).plen = s.plen := rfl
@[simp] theorem setDimSel_op : (setDimSel s).op = s.op := rfl
@[simp] theorem setDimSel_dev : (setDimSel s).dev = s.dev := rfl
@[simp] theorem setDimSel_val : (setDimSel s).val = s.val := rfl
@[simp] theorem setDimSel_tx : (setDimSel s).tx = s.tx := rfl
@[simp] theorem setDimSel_led : (setDimSel s).led = s.led := rfl
@[simp] theorem setDimSel_illCmd : (setDimSel s).illCmd = s.illCmd := rfl
@[simp] theorem setDimSel_wave : (setDimSel s).wave = s.wave := rfl
@[simp] theorem setDimSel_moves : (setDimSel s).moves = s.moves := rfl
@[simp] theorem setDimSel_lockAnswers : (setDimSel s).lockAnswers = s.lockAnswers := rfl
@[simp] theorem setDimSel_yieldAnswers : (setDimSel s).yieldAnswers = s.yieldAnswers := rfl
@[simp] theorem setDimSel_params : (setDimSel s).params = s.params := rfl
@[simp] theorem setDimSel_now : (setDimSel s).now = s.now := rfl
@[simp] theorem setDimSel_draws : (setDimSel s).draws = s.draws := rfl
@[simp] theorem setDimSel_answer : (setDimSel s).answer = s.answer := rfl

@[simp] theorem acceptCommand_pb (op dev val : Byte) : (acceptCommand op dev val s).pb = s.pb := rfl
@[simp] theorem acceptCommand_cfg (op dev val : Byte) : (acceptCommand op dev val s).cfg = s.cfg := rfl
@[simp] theorem acceptCommand_st (op dev val : Byte) : (acceptCommand op dev val s).st = .encoding := rfl
@[simp] theorem acceptCommand_lock (op dev val : Byte) : (acceptCommand op dev val s).lock = s.lock := rfl
@[simp] theorem acceptCommand_seq (op dev val : Byte) : (acceptCommand op dev val s).seq = s.seq := rfl
@[simp] theorem acceptCommand_plen (op dev val : Byte) : (acceptCommand op dev val s).plen = s.plen := rfl
@[simp] theorem acceptCommand_op (op dev val : Byte) : (acceptCommand op dev val s).op = op := rfl
@[simp] theorem acceptCommand_dev (op dev val : Byte) : (acceptCommand op dev val s).dev = dev := rfl
@[simp] theorem acceptCommand_val (op dev val : Byte) : (acceptCommand op dev val s).val = val := rfl
@[simp] theorem acceptCommand_tx (op dev val : Byte) : (acceptCommand op dev val s).tx = s.tx := rfl
@[simp] theorem acceptCommand_led (op dev val : Byte) : (acceptCommand op dev val s).led = s.led := rfl
@[simp] theorem acceptCommand_illCmd (op dev val : Byte) : (acceptCommand op dev val s).illCmd = s.illCmd := rfl
@[simp] theorem acceptCommand_wave (op dev val : Byte) : (acceptCommand op dev val s).wave = s.wave := rfl
@[simp] theorem acceptCommand_moves (op dev val : Byte) : (acceptCommand op dev val s).moves = s.moves := rfl
@[simp] theorem acceptCommand_lockAnswers (op dev val : Byte) : (acceptCommand op dev val s).lockAnswers = s.lockAnswers := rfl
@[simp] theorem acceptCommand_yieldAnswers (op dev val : Byte) : (acceptCommand op dev val s).yieldAnswers = s.yieldAnswers := rfl
@[simp] theorem acceptCommand_params (op dev val : Byte) : (acceptCommand op dev val s).params = s.params := rfl
@[simp] theorem acceptCommand_now (op dev val : Byte) : (acceptCommand op dev val s).now = s.now := rfl
@[simp] theorem acceptCommand_draws (op dev val : Byte) : (acceptCommand op dev val s).draws = s.draws := rfl
@[simp] theorem acceptCommand_answer (op dev val : Byte) : (acceptCommand op dev val s).answer = s.answer := rfl

@[simp] theorem raiseIllegal_pb : (raiseIllegal s).pb = s.pb := rfl
@[simp] theorem raiseIllegal_cfg : (raiseIllegal s).cfg = s.cfg := rfl
@[simp] theorem raiseIllegal_st : (raiseIllegal s).st = s.st := rfl
@[simp] theorem raiseIllegal_lock : (raiseIllegal s).lock = s.lock := rfl
@[simp] theorem raiseIllegal_seq : (raiseIllegal s).seq = s.seq := rfl
@[simp] theorem raiseIllegal_plen : (raiseIllegal s).plen = s.plen := rfl
@[simp] theorem raiseIllegal_op : (raiseIllegal s).op = s.op := rfl
@[simp] theorem raiseIllegal_dev : (raiseIllegal s).dev = s.dev := rfl
@[simp] theorem raiseIllegal_val : (raiseIllegal s).val = s.val := rfl
@[simp] theorem raiseIllegal_tx : (raiseIllegal s).tx = s.tx := rfl
@[simp] theorem raiseIllegal_led : (raiseIllegal s).led = s.led := rfl
@[simp] theorem raiseIllegal_illCmd : (raiseIllegal s).illCmd = true := rfl
@[simp] theorem raiseIllegal_wave : (raiseIllegal s).wave = s.wave := rfl
@[simp] theorem raiseIllegal_moves : (raiseIllegal s).moves = s.moves := rfl
@[simp] theorem raiseIllegal_lockAnswers : (raiseIllegal s).lockAnswers = s.lockAnswers := rfl
@[simp] theorem raiseIllegal_yieldAnswers : (raiseIllegal s).yieldAnswers = s.yieldAnswers := rfl
@[simp] theorem raiseIllegal_params : (raiseIllegal s).params = s.params := rfl
@[simp] theorem raiseIllegal_now : (raiseIllegal s).now = s.now := rfl
@[simp] theorem raiseIllegal_draws : (raiseIllegal s).draws = s.draws := rfl
@[simp] theorem raiseIllegal_answer : (raiseIllegal s).answer = s.answer := rfl

@[simp] theorem wait_pb (d : Delay) : (wait d s).pb = s.pb := by
  unfold wait; split <;> rfl
@[simp] theorem wait_cfg (d : Delay) : (wait d s).cfg = s.cfg := by
  unfold wait; split <;> rfl
@[simp] theorem wait_st (d : Delay) : (wait d s).st = s.st := by
  unfold wait; split <;> rfl
@[simp] theorem wait_lock (d : Delay) : (wait d s).lock = s.lock := by
  unfold wait; split <;> rfl
@[simp] theorem wait_seq (d : Delay) : (wait d s).seq = s.seq := by
  unfold wait; split <;> rfl
@[simp] theorem wait_plen (d : Delay) : (wait d s).plen = s.plen := by
  unfold wait; split <;> rfl
@[simp] theorem wait_op (d : Delay) : (wait d s).op = s.op := by
  unfold wait; split <;> rfl
@[simp] theorem wait_dev (d : Delay) : (wait d s).dev = s.dev := by
  unfold wait; split <;> rfl
@[simp] theorem wait_val (d : Delay) : (wait d s).val = s.val := by
  unfold wait; split <;> rfl
@[simp] theorem wait_tx (d : Delay) : (wait d s).tx = s.tx := by
  unfold wait; split <;> rfl
@[simp] theorem wait_led (d : Delay) : (wait d s).led = s.led := by
  unfold wait; split <;> rfl
@[simp] theorem wait_illCmd (d : Delay) : (wait d s).illCmd = s.illCmd := by
  unfold wait; split <;> rfl
@[simp] theorem wait_moves (d : Delay) : (wait d s).moves = s.moves := by
  unfold wait; split <;> rfl
@[simp] theorem wait_lockAnswers (d : Delay) : (wait d s).lockAnswers = s.lockAnswers := by
  unfold wait; split <;> rfl
@[simp] theorem wait_yieldAnswers (d : Delay) : (wait d s).yieldAnswers = s.yieldAnswers := by
  unfold wait; split <;> rfl
@[simp] theorem wait_params (d : Delay) : (wait d s).params = s.params := by
  unfold wait; split <;> rfl
@[simp] theorem wait_answer (d : Delay) : (wait d s).answer = s.answer := by
  unfold wait; split <;> rfl

@[simp] theorem wait_wave (d : Delay) : (wait d s).wave = s.wave ++ [.wait d] := by
  unfold wait; split <;> rfl

@[simp] theorem indicator_pb (b : Bool) : (indicator b s).pb = s.pb := by
  unfold indicator; split <;> rfl
@[simp] theorem indicator_cfg (b : Bool) : (indicator b s).cfg = s.cfg := by
  unfold indicator; split <;> rfl
@[simp] theorem indicator_st (b : Bool) : (indicator b s).st = s.st := by
  unfold indicator; split <;> rfl
@[simp] theorem indicator_lock (b : Bool) : (indicator b s).lock = s.lock := by
  unfold indicator; split <;> rfl
@[simp] theorem indicator_seq (b : Bool) : (indicator b s).seq = s.seq := by
  unfold indicator; split <;> rfl
@[simp] theorem indicator_plen (b : Bool) : (indicator b s).plen = s.plen := by
  unfold indicator; split <;> rfl
@[simp] theorem indicator_op (b : Bool) : (indicator b s).op = s.op := by
  unfold indicator; split <;> rfl
@[simp] theorem indicator_dev (b : Bool) : (indicator b s).dev = s.dev := by
  unfold indicator; split <;> rfl
@[simp] theorem indicator_val (b : Bool) : (indicator b s).val = s.val := by
  unfold indicator; split <;> rfl
@[simp] theorem indicator_tx (b : Bool) : (indicator b s).tx = s.tx := by
  unfold indicator; split <;> rfl
@[simp] theorem indicator_illCmd (b : Bool) : (indicator b s).illCmd = s.illCmd := by
  unfold indicator; split <;> rfl
@[simp] theorem indicator_moves (b : Bool) : (indicator b s).moves = s.moves := by
  unfold indicator; split <;> rfl
@[simp] theorem indicator_lockAnswers (b : Bool) : (indicator b s).lockAnswers = s.lockAnswers := by
  unfold indicator; split <;> rfl
@[simp] theorem indicator_yieldAnswers (b : Bool) : (indicator b s).yieldAnswers = s.yieldAnswers := by
  unfold indicator; split <;> rfl
@[simp] theorem indicator_params (b : Bool) : (indicator b s).params = s.params := by
  unfold indicator; split <;> rfl
@[simp] theorem indicator_now (b : Bool) : (indicator b s).now = s.now := by
  unfold indicator; split <;> rfl
@[simp] theorem indicator_draws (b : Bool) : (indicator b s).draws = s.draws := by
  unfold indicator; split <;> rfl
@[simp] theorem indicator_answer (b : Bool) : (indicator b s).answer = s.answer := by
  unfold indicator; split <;> rfl

@[simp] theorem indicator_led (b : Bool) : (indicator b s).led = if indicatorEnabled s then b else s.led := by
  unfold indicator; split <;> rfl

@[simp] theorem indicator_wave (b : Bool) :
    (indicator b s).wave = s.wave ++ if indicatorEnabled s then [.led b] else [] := by
  unfold indicator; split <;> simp

@[simp] theorem launch_pb (plen : PulseIndex) : (launch plen s).pb = s.pb := by
  unfold launch; simp only []; split <;> rfl
@[simp] theorem launch_cfg (plen : PulseIndex) : (launch plen s).cfg = s.cfg := by
  unfold launch; simp only []; split <;> rfl
@[simp] theorem launch_lock (plen : PulseIndex) : (launch plen s).lock = s.lock := by
  unfold launch; simp only []; split <;> rfl
@[simp] theorem launch_op (plen : PulseIndex) : (launch plen s).op = s.op := by
  unfold launch; simp only []; split <;> rfl
@[simp] theorem launch_dev (plen : PulseIndex) : (launch plen s).dev = s.dev := by
  unfold launch; simp only []; split <;> rfl
@[simp] theorem launch_val (plen : PulseIndex) : (launch plen s).val = s.val := by
  unfold launch; simp only []; split <;> rfl
@[simp] theorem launch_tx (plen : PulseIndex) : (launch plen s).tx = s.tx := by
  unfold launch; simp only []; split <;> rfl
@[simp] theorem launch_led (plen : PulseIndex) : (launch plen s).led = s.led := by
  unfold launch; simp only []; split <;> rfl
@[simp] theorem launch_illCmd (plen : PulseIndex) : (launch plen s).illCmd = s.illCmd := by
  unfold launch; simp only []; split <;> rfl
@[simp] theorem launch_wave (plen : PulseIndex) : (launch plen s).wave = s.wave := by
  unfold launch; simp only []; split <;> rfl
@[simp] theorem launch_moves (plen : PulseIndex) : (launch plen s).moves = s.moves := by
  unfold launch; simp only []; split <;> rfl
@[simp] theorem launch_lockAnswers (plen : PulseIndex) : (launch plen s).lockAnswers = s.lockAnswers := by
  unfold launch; simp only []; split <;> rfl
@[simp] theorem launch_yieldAnswers (plen : PulseIndex) : (launch plen s).yieldAnswers = s.yieldAnswers := by
  unfold launch; simp only []; split <;> rfl
@[simp] theorem launch_params (plen : PulseIndex) : (launch plen s).params = s.params := by
  unfold launch; simp only []; split <;> rfl
@[simp] theorem launch_answer (plen : PulseIndex) : (launch plen s).answer = s.answer := by
  unfold launch; simp only []; split <;> rfl

@[simp] theorem launch_plen (plen : PulseIndex) : (launch plen s).plen = plen := by
  unfold launch; simp only []; split <;> rfl
@[simp] theorem launch_st (plen : PulseIndex) :
    (launch plen s).st = if s.cfg.txCount = 0#8 then .idle else .transmitting := by
  unfold launch; simp only []; split <;> rfl
@[simp] theorem launch_seq (plen : PulseIndex) :
    (launch plen s).seq = if s.cfg.txCount = 0#8 then s.seq else Seq.start := by
  unfold launch; simp only []; split <;> rfl
@[simp] theorem launch_now (plen : PulseIndex) :
    (launch plen s).now = s.now + Config.encodingTime s.draws := by
  unfold launch; simp only []; split <;> rfl
@[simp] theorem launch_draws (plen : PulseIndex) : (launch plen s).draws = s.draws + 1 := by
  unfold launch; simp only []; split <;> rfl

@[simp] theorem yieldStep_pb : (yieldStep s).pb = s.pb := by
  unfold yieldStep; split <;> rfl
@[simp] theorem yieldStep_cfg : (yieldStep s).cfg = s.cfg := by
  unfold yieldStep; split <;> rfl
@[simp] theorem yieldStep_lock : (yieldStep s).lock = s.lock := by
  unfold yieldStep; split <;> rfl
@[simp] theorem yieldStep_plen : (yieldStep s).plen = s.plen := by
  unfold yieldStep; split <;> rfl
@[simp] theorem yieldStep_op : (yieldStep s).op = s.op := by
  unfold yieldStep; split <;> rfl
@[simp] theorem yieldStep_dev : (yieldStep s).dev = s.dev := by
  unfold yieldStep; split <;> rfl
@[simp] theorem yieldStep_val : (yieldStep s).val = s.val := by
  unfold yieldStep; split <;> rfl
@[simp] theorem yieldStep_tx : (yieldStep s).tx = s.tx := by
  unfold yieldStep; split <;> rfl
@[simp] theorem yieldStep_led : (yieldStep s).led = s.led := by
  unfold yieldStep; split <;> rfl
@[simp] theorem yieldStep_illCmd : (yieldStep s).illCmd = s.illCmd := by
  unfold yieldStep; split <;> rfl
@[simp] theorem yieldStep_wave : (yieldStep s).wave = s.wave := by
  unfold yieldStep; split <;> rfl
@[simp] theorem yieldStep_moves : (yieldStep s).moves = s.moves := by
  unfold yieldStep; split <;> rfl
@[simp] theorem yieldStep_lockAnswers : (yieldStep s).lockAnswers = s.lockAnswers := by
  unfold yieldStep; split <;> rfl
@[simp] theorem yieldStep_yieldAnswers : (yieldStep s).yieldAnswers = s.yieldAnswers := by
  unfold yieldStep; split <;> rfl
@[simp] theorem yieldStep_params : (yieldStep s).params = s.params := by
  unfold yieldStep; split <;> rfl
@[simp] theorem yieldStep_now : (yieldStep s).now = s.now := by
  unfold yieldStep; split <;> rfl
@[simp] theorem yieldStep_draws : (yieldStep s).draws = s.draws := by
  unfold yieldStep; split <;> rfl
@[simp] theorem yieldStep_answer : (yieldStep s).answer = s.answer := by
  unfold yieldStep; split <;> rfl

@[simp] theorem pulseLow_pb (d : Micros) : (pulseLow d s).pb = s.pb := by
  simp [pulseLow]
@[simp] theorem pulseLow_cfg (d : Micros) : (pulseLow d s).cfg = s.cfg := by
  simp [pulseLow]
@[simp] theorem pulseLow_st (d : Micros) : (pulseLow d s).st = s.st := by
  simp [pulseLow]
@[simp] theorem pulseLow_lock (d : Micros) : (pulseLow d s).lock = s.lock := by
  simp [pulseLow]
@[simp] theorem pulseLow_seq (d : Micros) : (pulseLow d s).seq = s.seq := by
  simp [pulseLow]
@[simp] theorem pulseLow_plen (d : Micros) : (pulseLow d s).plen = s.plen := by
  simp [pulseLow]
@[simp] theorem pulseLow_op (d : Micros) : (pulseLow d s).op = s.op := by
  simp [pulseLow]
@[simp] theorem pulseLow_dev (d : Micros) : (pulseLow d s).dev = s.dev := by
  simp [pulseLow]
@[simp] theorem pulseLow_val (d : Micros) : (pulseLow d s).val = s.val := by
  simp [pulseLow]
@[simp] theorem pulseLow_led (d : Micros) : (pulseLow d s).led = s.led := by
  simp [pulseLow]
@[simp] theorem pulseLow_illCmd (d : Micros) : (pulseLow d s).illCmd = s.illCmd := by
  simp [pulseLow]
@[simp] theorem pulseLow_moves (d : Micros) : (pulseLow d s).moves = s.moves := by
  simp [pulseLow]
@[simp] theorem pulseLow_lockAnswers (d : Micros) : (pulseLow d s).lockAnswers = s.lockAnswers := by
  simp [pulseLow]
@[simp] theorem pulseLow_yieldAnswers (d : Micros) : (pulseLow d s).yieldAnswers = s.yieldAnswers := by
  simp [pulseLow]
@[simp] theorem pulseLow_params (d : Micros) : (pulseLow d s).params = s.params := by
  simp [pulseLow]
@[simp] theorem pulseLow_answer (d : Micros) : (pulseLow d s).answer = s.answer := by
  simp [pulseLow]

@[simp] theorem pulseHigh_pb : (pulseHigh s).pb = s.pb := by
  simp [pulseHigh]
@[simp] theorem pulseHigh_cfg : (pulseHigh s).cfg = s.cfg := by
  simp [pulseHigh]
@[simp] theorem pulseHigh_st : (pulseHigh s).st = s.st := by
  simp [pulseHigh]
@[simp] theorem pulseHigh_lock : (pulseHigh s).lock = s.lock := by
  simp [pulseHigh]
@[simp] theorem pulseHigh_seq : (pulseHigh s).seq = s.seq := by
  simp [pulseHigh]
@[simp] theorem pulseHigh_plen : (pulseHigh s).plen = s.plen := by
  simp [pulseHigh]
@[simp] theorem pulseHigh_op : (pulseHigh s).op = s.op := by
  simp [pulseHigh]
@[simp] theorem pulseHigh_dev : (pulseHigh s).dev = s.dev := by
  simp [pulseHigh]
@[simp] theorem pulseHigh_val : (pulseHigh s).val = s.val := by
  simp [pulseHigh]
@[simp] theorem pulseHigh_led : (pulseHigh s).led = s.led := by
  simp [pulseHigh]
@[simp] theorem pulseHigh_illCmd : (pulseHigh s).illCmd = s.illCmd := by
  simp [pulseHigh]
@[simp] theorem pulseHigh_moves : (pulseHigh s).moves = s.moves := by
  simp [pulseHigh]
@[simp] theorem pulseHigh_lockAnswers : (pulseHigh s).lockAnswers = s.lockAnswers := by
  simp [pulseHigh]
@[simp] theorem pulseHigh_yieldAnswers : (pulseHigh s).yieldAnswers = s.yieldAnswers := by
  simp [pulseHigh]
@[simp] theorem pulseHigh_params : (pulseHigh s).params = s.params := by
  simp [pulseHigh]
@[simp] theorem pulseHigh_answer : (pulseHigh s).answer = s.answer := by
  simp [pulseHigh]

@[simp] theorem latchPulse_pb : (latchPulse s).pb = s.pb := by
  simp [latchPulse]
@[simp] theorem latchPulse_cfg : (latchPulse s).cfg = s.cfg := by
  simp [latchPulse]
@[simp] theorem latchPulse_st : (latchPulse s).st = s.st := by
  simp [latchPulse]
@[simp] theorem latchPulse_lock : (latchPulse s).lock = s.lock := by
  simp [latchPulse]
@[simp] theorem latchPulse_seq : (latchPulse s).seq = s.seq := by
  simp [latchPulse]
@[simp] theorem latchPulse_plen : (latchPulse s).plen = s.plen := by
  simp [latchPulse]
@[simp] theorem latchPulse_op : (latchPulse s).op = s.op := by
  simp [latchPulse]
@[simp] theorem latchPulse_dev : (latchPulse s).dev = s.dev := by
  simp [latchPulse]
@[simp] theorem latchPulse_val : (latchPulse s).val = s.val := by
  simp [latchPulse]
@[simp] theorem latchPulse_led : (latchPulse s).led = s.led := by
  simp [latchPulse]
@[simp] theorem latchPulse_illCmd : (latchPulse s).illCmd = s.illCmd := by
  simp [latchPulse]
@[simp] theorem latchPulse_moves : (latchPulse s).moves = s.moves := by
  simp [latchPulse]
@[simp] theorem latchPulse_lockAnswers : (latchPulse s).lockAnswers = s.lockAnswers := by
  simp [latchPulse]
@[simp] theorem latchPulse_yieldAnswers : (latchPulse s).yieldAnswers = s.yieldAnswers := by
  simp [latchPulse]
@[simp] theorem latchPulse_params : (latchPulse s).params = s.params := by
  simp [latchPulse]
@[simp] theorem latchPulse_answer : (latchPulse s).answer = s.answer := by
  simp [latchPulse]

@[simp] theorem pulseLow_tx (d : Micros) : (pulseLow d s).tx = false := by simp [pulseLow]
@[simp] theorem pulseHigh_tx : (pulseHigh s).tx = true := by simp [pulseHigh]
@[simp] theorem latchPulse_tx : (latchPulse s).tx = false := by simp [latchPulse]

theorem SameButBuffer.trans {s t u : State} (hst : SameButBuffer s t) (htu : SameButBuffer t u) : SameButBuffer s u := by
  cases s; cases t; cases u; simp_all [SameButBuffer]

/-- A field write changes the buffer and nothing else. -/
theorem setField_eq (base : Nat) (bs : List Bool) : SameButBuffer s (setField base bs s) := by
  induction bs generalizing base s with
  | nil => rfl
  | cons b bs ih => exact SameButBuffer.trans rfl (ih _ _)

@[simp] theorem setField_cfg (base : Nat) (bs : List Bool) : (setField base bs s).cfg = s.cfg :=
  (congrArg State.cfg (setField_eq s base bs)).trans rfl
@[simp] theorem setField_st (base : Nat) (bs : List Bool) : (setField base bs s).st = s.st :=
  (congrArg State.st (setField_eq s base bs)).trans rfl
@[simp] theorem setField_lock (base : Nat) (bs : List Bool) : (setField base bs s).lock = s.lock :=
  (congrArg State.lock (setField_eq s base bs)).trans rfl
@[simp] theorem setField_seq (base : Nat) (bs : List Bool) : (setField base bs s).seq = s.seq :=
  (congrArg State.seq (setField_eq s base bs)).trans rfl
@[simp] theorem setField_plen (base : Nat) (bs : List Bool) : (setField base bs s).plen = s.plen :=
  (congrArg State.plen (setField_eq s base bs)).trans rfl
@[simp] theorem setField_op (base : Nat) (bs : List Bool) : (setField base bs s).op = s.op :=
  (congrArg State.op (setField_eq s base bs)).trans rfl
@[simp] theorem setField_dev (base : Nat) (bs : List Bool) : (setField base bs s).dev = s.dev :=
  (congrArg State.dev (setField_eq s base bs)).trans rfl
@[simp] theorem setField_val (base : Nat) (bs : List Bool) : (setField base bs s).val = s.val :=
  (congrArg State.val (setField_eq s base bs)).trans rfl
@[simp] theorem setField_tx (base : Nat) (bs : List Bool) : (setField base bs s).tx = s.tx :=
  (congrArg State.tx (setField_eq s base bs)).trans rfl
@[simp] theorem setField_led (base : Nat) (bs : List Bool) : (setField base bs s).led = s.led :=
  (congrArg State.led (setField_eq s base bs)).trans rfl
@[simp] theorem setField_illCmd (base : Nat) (bs : List Bool) : (setField base bs s).illCmd = s.illCmd :=
  (congrArg State.illCmd (setField_eq s base bs)).trans rfl
@[simp] theorem setField_wave (base : Nat) (bs : List Bool) : (setField base bs s).wave = s.wave :=
  (congrArg State.wave (setField_eq s base bs)).trans rfl
@[simp] theorem setField_moves (base : Nat) (bs : List Bool) : (setField base bs s).moves = s.moves :=
  (congrArg State.moves (setField_eq s base bs)).trans rfl
@[simp] theorem setField_lockAnswers (base : Nat) (bs : List Bool) : (setField base bs s).lockAnswers = s.lockAnswers :=
  (congrArg State.lockAnswers (setField_eq s base bs)).trans rfl
@[simp] theorem setField_yieldAnswers (base : Nat) (bs : List Bool) : (setField base bs s).yieldAnswers = s.yieldAnswers :=
  (congrArg State.yieldAnswers (setField_eq s base bs)).trans rfl
@[simp] theorem setField_params (base : Nat) (bs : List Bool) : (setField base bs s).params = s.params :=
  (congrArg State.params (setField_eq s base bs)).trans rfl
@[simp] theorem setField_now (base : Nat) (bs : List Bool) : (setField base bs s).now = s.now :=
  (congrArg State.now (setField_eq s base bs)).trans rfl
@[simp] theorem setField_draws (base : Nat) (bs : List Bool) : (setField base bs s).draws = s.draws :=
  (congrArg State.draws (setField_eq s base bs)).trans rfl
@[simp] theorem setField_answer (base : Nat) (bs : List Bool) : (setField base bs s).answer = s.answer :=
  (congrArg State.answer (setField_eq s base bs)).trans rfl

theorem setCtrl_eq : SameButBuffer s (setCtrl s) := setField_eq s _ _

@[simp] theorem setCtrl_cfg : (setCtrl s).cfg = s.cfg :=
  (congrArg State.cfg (setCtrl_eq s)).trans rfl
@[simp] theorem setCtrl_st : (setCtrl s).st = s.st :=
  (congrArg State.st (setCtrl_eq s)).trans rfl
@[simp] theorem setCtrl_lock : (setCtrl s).lock = s.lock :=
  (congrArg State.lock (setCtrl_eq s)).trans rfl
@[simp] theorem setCtrl_seq : (setCtrl s).seq = s.seq :=
  (congrArg State.seq (setCtrl_eq s)).trans rfl
@[simp] theorem setCtrl_plen : (setCtrl s).plen = s.plen :=
  (congrArg State.plen (setCtrl_eq s)).trans rfl
@[simp] theorem setCtrl_op : (setCtrl s).op = s.op :=
  (congrArg State.op (setCtrl_eq s)).trans rfl
@[simp] theorem setCtrl_dev : (setCtrl s).dev = s.dev :=
  (congrArg State.dev (setCtrl_eq s)).trans rfl
@[simp] theorem setCtrl_val : (setCtrl s).val = s.val :=
  (congrArg State.val (setCtrl_eq s)).trans rfl
@[simp] theorem setCtrl_tx : (setCtrl s).tx = s.tx :=
  (congrArg State.tx (setCtrl_eq s)).trans rfl
@[simp] theorem setCtrl_led : (setCtrl s).led = s.led :=
  (congrArg State.led (setCtrl_eq s)).trans rfl
@[simp] theorem setCtrl_illCmd : (setCtrl s).illCmd = s.illCmd :=
  (congrArg State.illCmd (setCtrl_eq s)).trans rfl
@[simp] theorem setCtrl_wave : (setCtrl s).wave = s.wave :=
  (congrArg State.wave (setCtrl_eq s)).trans rfl
@[simp] theorem setCtrl_moves : (setCtrl s).moves = s.moves :=
  (congrArg State.moves (setCtrl_eq s)).trans rfl
@[simp] theorem setCtrl_lockAnswers : (setCtrl s).lockAnswers = s.lockAnswers :=
  (congrArg State.lockAnswers (setCtrl_eq s)).trans rfl
@[simp] theorem setCtrl_yieldAnswers : (setCtrl s).yieldAnswers = s.yieldAnswers :=
  (congrArg State.yieldAnswers (setCtrl_eq s)).trans rfl
@[simp] theorem setCtrl_params : (setCtrl s).params = s.params :=
  (congrArg State.params (setCtrl_eq s)).trans rfl
@[simp] theorem setCtrl_now : (setCtrl s).now = s.now :=
  (congrArg State.now (setCtrl_eq s)).trans rfl
@[simp] theorem setCtrl_draws : (setCtrl s).draws = s.draws :=
  (congrArg State.draws (setCtrl_eq s)).trans rfl
@[simp] theorem setCtrl_answer : (setCtrl s).answer = s.answer :=
  (congrArg State.answer (setCtrl_eq s)).trans rfl

theorem setDev_eq (address : Byte) : SameButBuffer s (setDev address s) := setField_eq s _ _

@[simp] theorem setDev_cfg (address : Byte) : (setDev address s).cfg = s.cfg :=
  (congrArg State.cfg (setDev_eq s address)).trans rfl
@[simp] theorem setDev_st (address : Byte) : (setDev address s).st = s.st :=
  (congrArg State.st (setDev_eq s address)).trans rfl
@[simp] theorem setDev_lock (address : Byte) : (setDev address s).lock = s.lock :=
  (congrArg State.lock (setDev_eq s address)).trans rfl
@[simp] theorem setDev_seq (address : Byte) : (setDev address s).seq = s.seq :=
  (congrArg State.seq (setDev_eq s address)).trans rfl
@[simp] theorem setDev_plen (address : Byte) : (setDev address s).plen = s.plen :=
  (congrArg State.plen (setDev_eq s address)).trans rfl
@[simp] theorem setDev_op (address : Byte) : (setDev address s).op = s.op :=
  (congrArg State.op (setDev_eq s address)).trans rfl
@[simp] theorem setDev_dev (address : Byte) : (setDev address s).dev = s.dev :=
  (congrArg State.dev (setDev_eq s address)).trans rfl
@[simp] theorem setDev_val (address : Byte) : (setDev address s).val = s.val :=
  (congrArg State.val (setDev_eq s address)).trans rfl
@[simp] theorem setDev_tx (address : Byte) : (setDev address s).tx = s.tx :=
  (congrArg State.tx (setDev_eq s address)).trans rfl
@[simp] theorem setDev_led (address : Byte) : (setDev address s).led = s.led :=
  (congrArg State.led (setDev_eq s address)).trans rfl
@[simp] theorem setDev_illCmd (address : Byte) : (setDev address s).illCmd = s.illCmd :=
  (congrArg State.illCmd (setDev_eq s address)).trans rfl
@[simp] theorem setDev_wave (address : Byte) : (setDev address s).wave = s.wave :=
  (congrArg State.wave (setDev_eq s address)).trans rfl
@[simp] theorem setDev_moves (address : Byte) : (setDev address s).moves = s.moves :=
  (congrArg State.moves (setDev_eq s address)).trans rfl
@[simp] theorem setDev_lockAnswers (address : Byte) : (setDev address s).lockAnswers = s.lockAnswers :=
  (congrArg State.lockAnswers (setDev_eq s address)).trans rfl
@[simp] theorem setDev_yieldAnswers (address : Byte) : (setDev address s).yieldAnswers = s.yieldAnswers :=
  (congrArg State.yieldAnswers (setDev_eq s address)).trans rfl
@[simp] theorem setDev_params (address : Byte) : (setDev address s).params = s.params :=
  (congrArg State.params (setDev_eq s address)).trans rfl
@[simp] theorem setDev_now (address : Byte) : (setDev address s).now = s.now :=
  (congrArg State.now (setDev_eq s address)).trans rfl
@[simp] theorem setDev_draws (address : Byte) : (setDev address s).draws = s.draws :=
  (congrArg State.draws (setDev_eq s address)).trans rfl
@[simp] theorem setDev_answer (address : Byte) : (setDev address s).answer = s.answer :=
  (congrArg State.answer (setDev_eq s address)).trans rfl

theorem setDim_eq (level4 : Byte) : SameButBuffer s (setDim level4 s) := setField_eq s _ _

@[simp] theorem setDim_cfg (level4 : Byte) : (setDim level4 s).cfg = s.cfg :=
  (congrArg State.cfg (setDim_eq s level4)).trans rfl
@[simp] theorem setDim_st (level4 : Byte) : (setDim level4 s).st = s.st :=
  (congrArg State.st (setDim_eq s level4)).trans rfl
@[simp] theorem setDim_lock (level4 : Byte) : (setDim level4 s).lock = s.lock :=
  (congrArg State.lock (setDim_eq s level4)).trans rfl
@[simp] theorem setDim_seq (level4 : Byte) : (setDim level4 s).seq = s.seq :=
  (congrArg State.seq (setDim_eq s level4)).trans rfl
@[simp] theorem setDim_plen (level4 : Byte) : (setDim level4 s).plen = s.plen :=
  (congrArg State.plen (setDim_eq s level4)).trans rfl
@[simp] theorem setDim_op (level4 : Byte) : (setDim level4 s).op = s.op :=
  (congrArg State.op (setDim_eq s level4)).trans rfl
@[simp] theorem setDim_dev (level4 : Byte) : (setDim level4 s).dev = s.dev :=
  (congrArg State.dev (setDim_eq s level4)).trans rfl
@[simp] theorem setDim_val (level4 : Byte) : (setDim level4 s).val = s.val :=
  (congrArg State.val (setDim_eq s level4)).trans rfl
@[simp] theorem setDim_tx (level4 : Byte) : (setDim level4 s).tx = s.tx :=
  (congrArg State.tx (setDim_eq s level4)).trans rfl
@[simp] theorem setDim_led (level4 : Byte) : (setDim level4 s).led = s.led :=
  (congrArg State.led (setDim_eq s level4)).trans rfl
@[simp] theorem setDim_illCmd (level4 : Byte) : (setDim level4 s).illCmd = s.illCmd :=
  (congrArg State.illCmd (setDim_eq s level4)).trans rfl
@[simp] theorem setDim_wave (level4 : Byte) : (setDim level4 s).wave = s.wave :=
  (congrArg State.wave (setDim_eq s level4)).trans rfl
@[simp] theorem setDim_moves (level4 : Byte) : (setDim level4 s).moves = s.moves :=
  (congrArg State.moves (setDim_eq s level4)).trans rfl
@[simp] theorem setDim_lockAnswers (level4 : Byte) : (setDim level4 s).lockAnswers = s.lockAnswers :=
  (congrArg State.lockAnswers (setDim_eq s level4)).trans rfl
@[simp] theorem setDim_yieldAnswers (level4 : Byte) : (setDim level4 s).yieldAnswers = s.yieldAnswers :=
  (congrArg State.yieldAnswers (setDim_eq s level4)).trans rfl
@[simp] theorem setDim_params (level4 : Byte) : (setDim level4 s).params = s.params :=
  (congrArg State.params (setDim_eq s level4)).trans rfl
@[simp] theorem setDim_now (level4 : Byte) : (setDim level4 s).now = s.now :=
  (congrArg State.now (setDim_eq s level4)).trans rfl
@[simp] theorem setDim_draws (level4 : Byte) : (setDim level4 s).draws = s.draws :=
  (congrArg State.draws (setDim_eq s level4)).trans rfl
@[simp] theorem setDim_answer (level4 : Byte) : (setDim level4 s).answer = s.answer :=
  (congrArg State.answer (setDim_eq s level4)).trans rfl

theorem sameButBuffer_setBit (offset : Nat) (value : Bool) : SameButBuffer s (setBit offset value s) := rfl

theorem sameButBuffer_setDimSel : SameButBuffer s (setDimSel s) := rfl

theorem offFields_eq : SameButBuffer s (offFields s) :=
  (((setCtrl_eq s).trans (sameButBuffer_setBit _ _ _)).trans (sameButBuffer_setBit _ _ _)).trans (setDev_eq _ _)

theorem onFields_eq : SameButBuffer s (onFields s) :=
  (((setCtrl_eq s).trans (sameButBuffer_setBit _ _ _)).trans (sameButBuffer_setBit _ _ _)).trans (setDev_eq _ _)

theorem groupOffFields_eq : SameButBuffer s (groupOffFields s) :=
  (((setCtrl_eq s).trans (sameButBuffer_setBit _ _ _)).trans (sameButBuffer_setBit _ _ _)).trans (setDev_eq _ _)

theorem groupOnFields_eq : SameButBuffer s (groupOnFields s) :=
  (((setCtrl_eq s).trans (sameButBuffer_setBit _ _ _)).trans (sameButBuffer_setBit _ _ _)).trans (setDev_eq _ _)

theorem dimFields_eq : SameButBuffer s (dimFields s) :=
  ((((setCtrl_eq s).trans (sameButBuffer_setBit _ _ _)).trans (sameButBuffer_setDimSel _)).trans (setDev_eq _ _)).trans (setDim_eq _ _)

@[simp] theorem offFields_cfg : (offFields s).cfg = s.cfg :=
  (congrArg State.cfg (offFields_eq s)).trans rfl
@[simp] theorem offFields_st : (offFields s).st = s.st :=
  (congrArg State.st (offFields_eq s)).trans rfl
@[simp] theorem offFields_lock : (offFields s).lock = s.lock :=
  (congrArg State.lock (offFields_eq s)).trans rfl
@[simp] theorem offFields_seq : (offFields s).seq = s.seq :=
  (congrArg State.seq (offFields_eq s)).trans rfl
@[simp] theorem offFields_plen : (offFields s).plen = s.plen :=
  (congrArg State.plen (offFields_eq s)).trans rfl
@[simp] theorem offFields_op : (offFields s).op = s.op :=
  (congrArg State.op (offFields_eq s)).trans rfl
@[simp] theorem offFields_dev : (offFields s).dev = s.dev :=
  (congrArg State.dev (offFields_eq s)).trans rfl
@[simp] theorem offFields_val : (offFields s).val = s.val :=
  (congrArg State.val (offFields_eq s)).trans rfl
@[simp] theorem offFields_tx : (offFields s).tx = s.tx :=
  (congrArg State.tx (offFields_eq s)).trans rfl
@[simp] theorem offFields_led : (offFields s).led = s.led :=
  (congrArg State.led (offFields_eq s)).trans rfl
@[simp] theorem offFields_illCmd : (offFields s).illCmd = s.illCmd :=
  (congrArg State.illCmd (offFields_eq s)).trans rfl
@[simp] theorem offFields_wave : (offFields s).wave = s.wave :=
  (congrArg State.wave (offFields_eq s)).trans rfl
@[simp] theorem offFields_moves : (offFields s).moves = s.moves :=
  (congrArg State.moves (offFields_eq s)).trans rfl
@[simp] theorem offFields_lockAnswers : (offFields s).lockAnswers = s.lockAnswers :=
  (congrArg State.lockAnswers (offFields_eq s)).trans rfl
@[simp] theorem offFields_yieldAnswers : (offFields s).yieldAnswers = s.yieldAnswers :=
  (congrArg State.yieldAnswers (offFields_eq s)).trans rfl
@[simp] theorem offFields_params : (offFields s).params = s.params :=
  (congrArg State.params (offFields_eq s)).trans rfl
@[simp] theorem offFields_now : (offFields s).now = s.now :=
  (congrArg State.now (offFields_eq s)).trans rfl
@[simp] theorem offFields_draws : (offFields s).draws = s.draws :=
  (congrArg State.draws (offFields_eq s)).trans rfl
@[simp] theorem offFields_answer : (offFields s).answer = s.answer :=
  (congrArg State.answer (offFields_eq s)).trans rfl

@[simp] theorem onFields_cfg : (onFields s).cfg = s.cfg :=
  (congrArg State.cfg (onFields_eq s)).trans rfl
@[simp] theorem onFields_st : (onFields s).st = s.st :=
  (congrArg State.st (onFields_eq s)).trans rfl
@[simp] theorem onFields_lock : (onFields s).lock = s.lock :=
  (congrArg State.lock (onFields_eq s)).trans rfl
@[simp] theorem onFields_seq : (onFields s).seq = s.seq :=
  (congrArg State.seq (onFields_eq s)).trans rfl
@[simp] theorem onFields_plen : (onFields s).plen = s.plen :=
  (congrArg State.plen (onFields_eq s)).trans rfl
@[simp] theorem onFields_op : (onFields s).op = s.op :=
  (congrArg State.op (onFields_eq s)).trans rfl
@[simp] theorem onFields_dev : (onFields s).dev = s.dev :=
  (congrArg State.dev (onFields_eq s)).trans rfl
@[simp] theorem onFields_val : (onFields s).val = s.val :=
  (congrArg State.val (onFields_eq s)).trans rfl
@[simp] theorem onFields_tx : (onFields s).tx = s.tx :=
  (congrArg State.tx (onFields_eq s)).trans rfl
@[simp] theorem onFields_led : (onFields s).led = s.led :=
  (congrArg State.led (onFields_eq s)).trans rfl
@[simp] theorem onFields_illCmd : (onFields s).illCmd = s.illCmd :=
  (congrArg State.illCmd (onFields_eq s)).trans rfl
@[simp] theorem onFields_wave : (onFields s).wave = s.wave :=
  (congrArg State.wave (onFields_eq s)).trans rfl
@[simp] theorem onFields_moves : (onFields s).moves = s.moves :=
  (congrArg State.moves (onFields_eq s)).trans rfl
@[simp] theorem onFields_lockAnswers : (onFields s).lockAnswers = s.lockAnswers :=
  (congrArg State.lockAnswers (onFields_eq s)).trans rfl
@[simp] theorem onFields_yieldAnswers : (onFields s).yieldAnswers = s.yieldAnswers :=
  (congrArg State.yieldAnswers (onFields_eq s)).trans rfl
@[simp] theorem onFields_params : (onFields s).params = s.params :=
  (congrArg State.params (onFields_eq s)).trans rfl
@[simp] theorem onFields_now : (onFields s).now = s.now :=
  (congrArg State.now (onFields_eq s)).trans rfl
@[simp] theorem onFields_draws : (onFields s).draws = s.draws :=
  (congrArg State.draws (onFields_eq s)).trans rfl
@[simp] theorem onFields_answer : (onFields s).answer = s.answer :=
  (congrArg State.answer (onFields_eq s)).trans rfl

@[simp] theorem groupOffFields_cfg : (groupOffFields s).cfg = s.cfg :=
  (congrArg State.cfg (groupOffFields_eq s)).trans rfl
@[simp] theorem groupOffFields_st : (groupOffFields s).st = s.st :=
  (congrArg State.st (groupOffFields_eq s)).trans rfl
@[simp] theorem groupOffFields_lock : (groupOffFields s).lock = s.lock :=
  (congrArg State.lock (groupOffFields_eq s)).trans rfl
@[simp] theorem groupOffFields_seq : (groupOffFields s).seq = s.seq :=
  (congrArg State.seq (groupOffFields_eq s)).trans rfl
@[simp] theorem groupOffFields_plen : (groupOffFields s).plen = s.plen :=
  (congrArg State.plen (groupOffFields_eq s)).trans rfl
@[simp] theorem groupOffFields_op : (groupOffFields s).op = s.op :=
  (congrArg State.op (groupOffFields_eq s)).trans rfl
@[simp] theorem groupOffFields_dev : (groupOffFields s).dev = s.dev :=
  (congrArg State.dev (groupOffFields_eq s)).trans rfl
@[simp] theorem groupOffFields_val : (groupOffFields s).val = s.val :=
  (congrArg State.val (groupOffFields_eq s)).trans rfl
@[simp] theorem groupOffFields_tx : (groupOffFields s).tx = s.tx :=
  (congrArg State.tx (groupOffFields_eq s)).trans rfl
@[simp] theorem groupOffFields_led : (groupOffFields s).led = s.led :=
  (congrArg State.led (groupOffFields_eq s)).trans rfl
@[simp] theorem groupOffFields_illCmd : (groupOffFields s).illCmd = s.illCmd :=
  (congrArg State.illCmd (groupOffFields_eq s)).trans rfl
@[simp] theorem groupOffFields_wave : (groupOffFields s).wave = s.wave :=
  (congrArg State.wave (groupOffFields_eq s)).trans rfl
@[simp] theorem groupOffFields_moves : (groupOffFields s).moves = s.moves :=
  (congrArg State.moves (groupOffFields_eq s)).trans rfl
@[simp] theorem groupOffFields_lockAnswers : (groupOffFields s).lockAnswers = s.lockAnswers :=
  (congrArg State.lockAnswers (groupOffFields_eq s)).trans rfl
@[simp] theorem groupOffFields_yieldAnswers : (groupOffFields s).yieldAnswers = s.yieldAnswers :=
  (congrArg State.yieldAnswers (groupOffFields_eq s)).trans rfl
@[simp] theorem groupOffFields_params : (groupOffFields s).params = s.params :=
  (congrArg State.params (groupOffFields_eq s)).trans rfl
@[simp] theorem groupOffFields_now : (groupOffFields s).now = s.now :=
  (congrArg State.now (groupOffFields_eq s)).trans rfl
@[simp] theorem groupOffFields_draws : (groupOffFields s).draws = s.draws :=
  (congrArg State.draws (groupOffFields_eq s)).trans rfl
@[simp] theorem groupOffFields_answer : (groupOffFields s).answer = s.answer :=
  (congrArg State.answer (groupOffFields_eq s)).trans rfl

@[simp] theorem groupOnFields_cfg : (groupOnFields s).cfg = s.cfg :=
  (congrArg State.cfg (groupOnFields_eq s)).trans rfl
@[simp] theorem groupOnFields_st : (groupOnFields s).st = s.st :=
  (congrArg State.st (groupOnFields_eq s)).trans rfl
@[simp] theorem groupOnFields_lock : (groupOnFields s).lock = s.lock :=
  (congrArg State.lock (groupOnFields_eq s)).trans rfl
@[simp] theorem groupOnFields_seq : (groupOnFields s).seq = s.seq :=
  (congrArg State.seq (groupOnFields_eq s)).trans rfl
@[simp] theorem groupOnFields_plen : (groupOnFields s).plen = s.plen :=
  (congrArg State.plen (groupOnFields_eq s)).trans rfl
@[simp] theorem groupOnFields_op : (groupOnFields s).op = s.op :=
  (congrArg State.op (groupOnFields_eq s)).trans rfl
@[simp] theorem groupOnFields_dev : (groupOnFields s).dev = s.dev :=
  (congrArg State.dev (groupOnFields_eq s)).trans rfl
@[simp] theorem groupOnFields_val : (groupOnFields s).val = s.val :=
  (congrArg State.val (groupOnFields_eq s)).trans rfl
@[simp] theorem groupOnFields_tx : (groupOnFields s).tx = s.tx :=
  (congrArg State.tx (groupOnFields_eq s)).trans rfl
@[simp] theorem groupOnFields_led : (groupOnFields s).led = s.led :=
  (congrArg State.led (groupOnFields_eq s)).trans rfl
@[simp] theorem groupOnFields_illCmd : (groupOnFields s).illCmd = s.illCmd :=
  (congrArg State.illCmd (groupOnFields_eq s)).trans rfl
@[simp] theorem groupOnFields_wave : (groupOnFields s).wave = s.wave :=
  (congrArg State.wave (groupOnFields_eq s)).trans rfl
@[simp] theorem groupOnFields_moves : (groupOnFields s).moves = s.moves :=
  (congrArg State.moves (groupOnFields_eq s)).trans rfl
@[simp] theorem groupOnFields_lockAnswers : (groupOnFields s).lockAnswers = s.lockAnswers :=
  (congrArg State.lockAnswers (groupOnFields_eq s)).trans rfl
@[simp] theorem groupOnFields_yieldAnswers : (groupOnFields s).yieldAnswers = s.yieldAnswers :=
  (congrArg State.yieldAnswers (groupOnFields_eq s)).trans rfl
@[simp] theorem groupOnFields_params : (groupOnFields s).params = s.params :=
  (congrArg State.params (groupOnFields_eq s)).trans rfl
@[simp] theorem groupOnFields_now : (groupOnFields s).now = s.now :=
  (congrArg State.now (groupOnFields_eq s)).trans rfl
@[simp] theorem groupOnFields_draws : (groupOnFields s).draws = s.draws :=
  (congrArg State.draws (groupOnFields_eq s)).trans rfl
@[simp] theorem groupOnFields_answer : (groupOnFields s).answer = s.answer :=
  (congrArg State.answer (groupOnFields_eq s)).trans rfl

@[simp] theorem dimFields_cfg : (dimFields s).cfg = s.cfg :=
  (congrArg State.cfg (dimFields_eq s)).trans rfl
@[simp] theorem dimFields_st : (dimFields s).st = s.st :=
  (congrArg State.st (dimFields_eq s)).trans rfl
@[simp] theorem dimFields_lock : (dimFields s).lock = s.lock :=
  (congrArg State.lock (dimFields_eq s)).trans rfl
@[simp] theorem dimFields_seq : (dimFields s).seq = s.seq :=
  (congrArg State.seq (dimFields_eq s)).trans rfl
@[simp] theorem dimFields_plen : (dimFields s).plen = s.plen :=
  (congrArg State.plen (dimFields_eq s)).trans rfl
@[simp] theorem dimFields_op : (dimFields s).op = s.op :=
  (congrArg State.op (dimFields_eq s)).trans rfl
@[simp] theorem dimFields_dev : (dimFields s).dev = s.dev :=
  (congrArg State.dev (dimFields_eq s)).trans rfl
@[simp] theorem dimFields_val : (dimFields s).val = s.val :=
  (congrArg State.val (dimFields_eq s)).trans rfl
@[simp] theorem dimFields_tx : (dimFields s).tx = s.tx :=
  (congrArg State.tx (dimFields_eq s)).trans rfl
@[simp] theorem dimFields_led : (dimFields s).led = s.led :=
  (congrArg State.led (dimFields_eq s)).trans rfl
@[simp] theorem dimFields_illCmd : (dimFields s).illCmd = s.illCmd :=
  (congrArg State.illCmd (dimFields_eq s)).trans rfl
@[simp] theorem dimFields_wave : (dimFields s).wave = s.wave :=
  (congrArg State.wave (dimFields_eq s)).trans rfl
@[simp] theorem dimFields_moves : (dimFields s).moves = s.moves :=
  (congrArg State.moves (dimFields_eq s)).trans rfl
@[simp] theorem dimFields_lockAnswers : (dimFields s).lockAnswers = s.lockAnswers :=
  (congrArg State.lockAnswers (dimFields_eq s)).trans rfl
@[simp] theorem dimFields_yieldAnswers : (dimFields s).yieldAnswers = s.yieldAnswers :=
  (congrArg State.yieldAnswers (dimFields_eq s)).trans rfl
@[simp] theorem dimFields_params : (dimFields s).params = s.params :=
  (congrArg State.params (dimFields_eq s)).trans rfl
@[simp] theorem dimFields_now : (dimFields s).now = s.now :=
  (congrArg State.now (dimFields_eq s)).trans rfl
@[simp] theorem dimFields_draws : (dimFields s).draws = s.draws :=
  (congrArg State.draws (dimFields_eq s)).trans rfl
@[simp] theorem dimFields_answer : (dimFields s).answer = s.answer :=
  (congrArg State.answer (dimFields_eq s)).trans rfl

end Sys2Proof.Machine
end

