-- ==== Sys2Proof/Laws/Buffer.lean ====
section
/-! SUPPORT. What the operations that write the pulse buffer do to its entries and to the frame it holds. -/

namespace Sys2Proof.Machine

/-- An entry depends on the buffer alone. -/
theorem entry_congr {s t : State} (h : t.pb = s.pb) (j : Nat) : entry t j = entry s j := by simp [entry, h]

theorem symAt_congr {s t : State} (h : t.pb = s.pb) (i : Nat) : symAt t i = symAt s i := by
  simp [symAt, entry_congr h]

theorem lowPeriods_congr {s t : State} (h : t.pb = s.pb) (n : Nat) : lowPeriods t n = lowPeriods s n := by
  simp [lowPeriods, entry_congr h]

/-- `PB[j] <- v` inside the buffer: entry `j` is `v`, and no other entry changes (rule R22). -/
theorem entry_pbWrite (j k : Nat) (v : Micros) (s : State) (h : j < 72) :
    entry (pbWrite j v s) k = if k = j then some v else entry s k := by
  simp only [entry, pbWrite_pb, Vector.getElem?_setIfInBounds]
  by_cases hk : j = k
  · subst hk; simp [h]
  · simp [hk, Ne.symm hk]

/-- What PULSE's read gives, by what the entry holds. -/
theorem pbRead_of_entry {j : Nat} {s : State} {d : Micros} (h : entry s j = some d) : pbRead j s = .ok d := by
  unfold pbRead; unfold entry at h
  cases hj : s.pb[j]? with
  | none => simp [hj] at h
  | some o => cases o with
    | none => simp [hj] at h
    | some v => simpa [hj] using h

theorem pbRead_unwritten {j : Nat} {s : State} (hj : j < 72) (h : entry s j = none) :
    pbRead j s = .error .unwrittenRead := by
  unfold pbRead; unfold entry at h
  have : s.pb[j]? = some s.pb[j] := by simp [hj]
  rw [this] at h ⊢
  cases hv : s.pb[j] with
  | none => simp
  | some v => simp [hv] at h

theorem entry_writePair (offset k : Nat) (pair : Micros × Micros) (s : State) (h : offset < 36) :
    entry (writePair offset pair s) k =
      if k = 2 * offset + 1 then some pair.2 else if k = 2 * offset then some pair.1 else entry s k := by
  rw [writePair, entry_pbWrite _ _ _ _ (by omega), entry_pbWrite _ _ _ _ (by omega)]

/-- A pair is the logical bit `b` exactly when it holds the wire encoding of `b` (rule R92). -/
theorem pairSym_eq_bit (a b : Option Micros) (v : Bool) :
    pairSym a b = some (.bit v) ↔ a = some (bitPair v).1 ∧ b = some (bitPair v).2 := by
  cases a <;> cases b <;> cases v <;> simp [pairSym, bitPair] <;>
    (repeat' split) <;> simp_all [tShort, tLong]

theorem pairSym_eq_dimSel (a b : Option Micros) :
    pairSym a b = some .dimSel ↔ a = some tShort ∧ b = some tShort := by
  cases a <;> cases b <;> simp [pairSym, tShort, tLong] <;> grind

theorem pairSym_eq_never (a b : Option Micros) :
    pairSym a b = some .never ↔ a = some tLong ∧ b = some tLong := by
  cases a <;> cases b <;> simp [pairSym, tShort, tLong] <;> grind

/-- A pair's symbol says what both entries hold. -/
theorem pairSym_inj {a b c d : Option Micros} {y : Sym} (h : pairSym a b = some y) (h' : pairSym c d = some y) :
    a = c ∧ b = d := by
  cases y with
  | bit v => simp [(pairSym_eq_bit _ _ _).1 h, (pairSym_eq_bit _ _ _).1 h']
  | dimSel => simp [(pairSym_eq_dimSel _ _).1 h, (pairSym_eq_dimSel _ _).1 h']
  | never => simp [(pairSym_eq_never _ _).1 h, (pairSym_eq_never _ _).1 h']

theorem symAt_writePair (offset i : Nat) (pair : Micros × Micros) (s : State) (h : offset < 36) :
    symAt (writePair offset pair s) i =
      if i = offset then pairSym (some pair.1) (some pair.2) else symAt s i := by
  simp only [symAt, entry_writePair _ _ _ _ h]
  by_cases hi : i = offset
  · subst hi; simp
  · simp [hi, show 2 * i ≠ 2 * offset + 1 by omega, show 2 * i + 1 ≠ 2 * offset by omega]

@[simp] theorem pairSym_bitPair (v : Bool) : pairSym (some (bitPair v).1) (some (bitPair v).2) = some (.bit v) :=
  (pairSym_eq_bit _ _ _).2 ⟨rfl, rfl⟩

/-- SETBIT makes its offset the logical bit, and leaves every other offset (rule R140). -/
theorem symAt_setBit (offset i : Nat) (v : Bool) (s : State) (h : offset < 36) :
    symAt (setBit offset v s) i = if i = offset then some (.bit v) else symAt s i := by
  rw [setBit, symAt_writePair _ _ _ _ h, pairSym_bitPair]

theorem symAt_setDimSel (i : Nat) (s : State) :
    symAt (setDimSel s) i = if i = 27 then some .dimSel else symAt s i := by
  rw [setDimSel, symAt_writePair _ _ _ _ (by decide)]; rfl

/-- An entry outside a field is as before (rules R68, R103). -/
theorem entry_setField (base : Nat) (bs : List Bool) (s : State) (h : base + bs.length ≤ 36) (j : Nat)
    (hj : j < 2 * base ∨ 2 * (base + bs.length) ≤ j) : entry (setField base bs s) j = entry s j := by
  induction bs generalizing base s with
  | nil => rfl
  | cons b bs ih =>
    simp only [List.length_cons] at h hj
    rw [setField, ih _ _ (by omega) (by omega), setBit, entry_writePair _ _ _ _ (by omega)]
    simp [show j ≠ 2 * base + 1 by omega, show j ≠ 2 * base by omega]

/-- The symbols of a field are its bits, and every other offset is as before. -/
theorem symAt_setField (base : Nat) (bs : List Bool) (s : State) (h : base + bs.length ≤ 36) (i : Nat) :
    symAt (setField base bs s) i =
      if hi : base ≤ i ∧ i < base + bs.length then some (.bit (bs[i - base]'(by omega))) else symAt s i := by
  induction bs generalizing base s with
  | nil => simp [setField]
  | cons b bs ih =>
    simp only [List.length_cons] at h
    rw [setField, ih _ _ (by omega), symAt_setBit _ _ _ _ (by omega)]
    by_cases h1 : base + 1 ≤ i ∧ i < base + 1 + bs.length
    · have : i - base = (i - (base + 1)) + 1 := by omega
      simp [h1, show base ≤ i ∧ i < base + (bs.length + 1) by omega, this]
    · by_cases h2 : i = base
      · subst h2; simp
      · rw [dif_neg h1, if_neg h2, dif_neg (by simp only [List.length_cons]; omega)]

theorem symAt_setCtrl (s : State) (i : Nat) :
    symAt (setCtrl s) i = if i < 26 then some (.bit (s.cfg.cid.toNat.testBit (25 - i))) else symAt s i := by
  rw [setCtrl, symAt_setField _ _ _ (by simp)]
  by_cases h : i < 26
  · simp [h, bitconv_getElem]
  · simp [h]

theorem symAt_setDev (address : Byte) (s : State) (i : Nat) :
    symAt (setDev address s) i =
      if 28 ≤ i ∧ i < 32 then some (.bit (address.toNat.testBit (31 - i))) else symAt s i := by
  rw [setDev, symAt_setField _ _ _ (by simp [deviceOffset])]
  by_cases h : 28 ≤ i ∧ i < 32
  · simp [h, bitconv_getElem, deviceOffset, show 4 - 1 - (i - 28) = 31 - i by omega]
  · simp [h, deviceOffset]

theorem symAt_setDim (level4 : Byte) (s : State) (i : Nat) :
    symAt (setDim level4 s) i =
      if 32 ≤ i ∧ i < 36 then some (.bit (level4.toNat.testBit (35 - i))) else symAt s i := by
  rw [setDim, symAt_setField _ _ _ (by simp [dimOffset])]
  by_cases h : 32 ≤ i ∧ i < 36
  · simp [h, bitconv_getElem, dimOffset, show 4 - 1 - (i - 32) = 35 - i by omega]
  · simp [h, dimOffset]

theorem entry_setCtrl (s : State) (j : Nat) (h : 52 ≤ j) : entry (setCtrl s) j = entry s j :=
  entry_setField _ _ _ (by simp) _ (by simp; omega)

theorem entry_setDev (address : Byte) (s : State) (j : Nat) (h : j < 56 ∨ 64 ≤ j) :
    entry (setDev address s) j = entry s j :=
  entry_setField _ _ _ (by simp [deviceOffset]) _ (by simp [deviceOffset]; omega)

theorem entry_setDim (level4 : Byte) (s : State) (j : Nat) (h : j < 64) : entry (setDim level4 s) j = entry s j :=
  entry_setField _ _ _ (by simp [dimOffset]) _ (by simp [dimOffset]; omega)

theorem entry_setBit (offset : Nat) (v : Bool) (s : State) (j : Nat) (h : offset < 36) (h0 : j ≠ 2 * offset)
    (h1 : j ≠ 2 * offset + 1) : entry (setBit offset v s) j = entry s j := by
  rw [setBit, entry_writePair _ _ _ _ h]; simp [h0, h1]

theorem entry_setDimSel (s : State) (j : Nat) (h0 : j ≠ 54) (h1 : j ≠ 55) : entry (setDimSel s) j = entry s j := by
  rw [setDimSel, entry_writePair _ _ _ _ (by decide)]; simp [commandFlagOffset, h0, h1]

/-- What a command's flag writers and field writers leave: the frame of rule R110, up to offset 31. -/
theorem symAt_plainFields (s : State) (g c : Bool) (address : Byte) (i : Nat) (h : i < 32) :
    symAt (setDev address (setBit commandFlagOffset c (setBit groupFlagOffset g (setCtrl s)))) i =
      some (frameSym s.cfg.cid g (.bit c) address.toNat 0 i) := by
  rw [symAt_setDev, symAt_setBit _ _ _ _ (by decide), symAt_setBit _ _ _ _ (by decide), symAt_setCtrl]
  simp only [commandFlagOffset, groupFlagOffset, frameSym]
  grind

theorem entry_plainFields (s : State) (g c : Bool) (address : Byte) (j : Nat) (h : 64 ≤ j) :
    entry (setDev address (setBit commandFlagOffset c (setBit groupFlagOffset g (setCtrl s)))) j = entry s j := by
  rw [entry_setDev _ _ _ (by omega), entry_setBit _ _ _ _ (by decide) (by simp [commandFlagOffset]; omega)
    (by simp [commandFlagOffset]; omega), entry_setBit _ _ _ _ (by decide) (by simp [groupFlagOffset]; omega)
    (by simp [groupFlagOffset]; omega), entry_setCtrl _ _ (by omega)]

theorem symAt_dimFields (s : State) (i : Nat) (h : i < 36) :
    symAt (dimFields s) i = some (frameSym s.cfg.cid false .dimSel s.dev.toNat
      (rescale s.params.rescaleMode s.val).toNat i) := by
  rw [dimFields, symAt_setDim, symAt_setDev, symAt_setDimSel, symAt_setBit _ _ _ _ (by decide), symAt_setCtrl]
  simp only [groupFlagOffset, frameSym]
  grind

/-- Only the low 4 bits of the device and the level reach the frame (rule R103). -/
theorem frameSym_mod (cid : Identity) (g : Bool) (c : Sym) (device level i : Nat) (h : i < 36) :
    frameSym cid g c (device % 16) (level % 16) i = frameSym cid g c device level i := by
  unfold frameSym
  have h16 : (16 : Nat) = 2 ^ 4 := rfl
  split; · rfl
  split; · rfl
  split; · rfl
  split
  · next h32 => rw [h16, Nat.testBit_mod_two_pow]; simp [show 31 - i < 4 by omega]
  · rw [h16, Nat.testBit_mod_two_pow]; simp [show 35 - i < 4 by omega]

/-- A buffer is known entry by entry. -/
theorem pb_ext {s t : State} (h : ∀ j < 72, entry s j = entry t j) : s.pb = t.pb := by
  refine Vector.ext fun j hj => ?_
  have := h j hj
  simpa [entry, hj] using this

end Sys2Proof.Machine
end

