-- ==== Sys2Proof/Laws/Decode.lean ====
section
/-! SUPPORT. The fields of a command word (rule R98). -/

namespace Sys2Proof

/-- A command word bit by bit. -/
theorem cmdWord_getLsbD (op dev val : Byte) (i : Nat) :
    (cmdWord op dev val).getLsbD i =
      if i < 8 then val.getLsbD i else if i < 16 then dev.getLsbD (i - 8) else op.getLsbD (i - 16) := by
  have : (cmdWord op dev val).getLsbD i = BitVec.getLsbD (w := 8 + 8 + 8) (op ++ dev ++ val) i := rfl
  rw [this, BitVec.getLsbD_append, BitVec.getLsbD_append]
  by_cases h8 : i < 8
  · simp [h8]
  · by_cases h16 : i < 16
    · simp [h8, h16, show i - 8 < 8 by omega]
    · simp [h8, h16, show ¬ i - 8 < 8 by omega, show i - 8 - 8 = i - 16 by omega]

@[simp] theorem opField_cmdWord (op dev val : Byte) : opField (cmdWord op dev val) = op := by
  refine BitVec.eq_of_getLsbD_eq fun i hi => ?_
  simp [opField, hi, cmdWord_getLsbD, show ¬ 16 + i < 8 by omega]

@[simp] theorem devField_cmdWord (op dev val : Byte) : devField (cmdWord op dev val) = dev := by
  refine BitVec.eq_of_getLsbD_eq fun i hi => ?_
  simp [devField, hi, cmdWord_getLsbD, show 8 + i < 16 by omega]

@[simp] theorem valField_cmdWord (op dev val : Byte) : valField (cmdWord op dev val) = val := by
  refine BitVec.eq_of_getLsbD_eq fun i hi => ?_
  simp [valField, hi, cmdWord_getLsbD]

/-- A command word is its three fields. -/
theorem cmdWord_fields (w : CmdWord) : cmdWord (opField w) (devField w) (valField w) = w := by
  refine BitVec.eq_of_getLsbD_eq fun i hi => ?_
  simp only [cmdWord_getLsbD, opField, devField, valField, BitVec.getLsbD_extractLsb']
  by_cases h8 : i < 8
  · simp [h8]
  · by_cases h16 : i < 16
    · simp [h8, h16, show i - 8 < 8 by omega, show 8 + (i - 8) = i by omega]
    · simp [h8, h16, show i - 16 < 8 by omega, show 16 + (i - 16) = i by omega]

/-- An opcode of `0x06` or greater is none of the six commands'. -/
theorem decode_illegal (op dev val : Byte) (h : 6 ≤ op.toNat) :
    decode (cmdWord op dev val) = .illegal op dev val := by
  have ne : ∀ c : Byte, c.toNat < 6 → op ≠ c := fun c hc e => by subst e; omega
  simp [decode, ne 0#8 (by decide), ne 1#8 (by decide), ne 2#8 (by decide), ne 3#8 (by decide), ne 4#8 (by decide),
    ne 5#8 (by decide)]

/-- The seven things a word can decode to, each with its opcode. -/
theorem decode_cases (w : CmdWord) :
    (opField w = 0x00#8 ∧ decode w = .deviceOff (devField w) (valField w)) ∨
    (opField w = 0x01#8 ∧ decode w = .deviceOn (devField w) (valField w)) ∨
    (opField w = 0x02#8 ∧ decode w = .groupOff (devField w) (valField w)) ∨
    (opField w = 0x03#8 ∧ decode w = .groupOn (devField w) (valField w)) ∨
    (opField w = 0x04#8 ∧ decode w = .dim (devField w) (valField w)) ∨
    (opField w = 0x05#8 ∧ decode w = .switch (devField w) (valField w)) ∨
    (6 ≤ (opField w).toNat ∧ decode w = .illegal (opField w) (devField w) (valField w)) := by
  by_cases h : 6 ≤ (opField w).toNat
  · have := decode_illegal _ (devField w) (valField w) h
    rw [cmdWord_fields] at this
    exact .inr (.inr (.inr (.inr (.inr (.inr ⟨h, this⟩)))))
  · have : opField w = 0#8 ∨ opField w = 1#8 ∨ opField w = 2#8 ∨ opField w = 3#8 ∨ opField w = 4#8 ∨
        opField w = 5#8 := by
      have : (opField w).toNat = 0 ∨ (opField w).toNat = 1 ∨ (opField w).toNat = 2 ∨ (opField w).toNat = 3 ∨
        (opField w).toNat = 4 ∨ (opField w).toNat = 5 := by omega
      simpa [← BitVec.toNat_inj] using this
    rcases this with e | e | e | e | e | e <;> simp [decode, e]

end Sys2Proof
end

