-- ==== Sys2Proof/Laws/Commands.lean ====
section
/-! SUPPORT. What a command leaves (rules R160 to R167). -/

namespace Sys2Proof.Machine

/-- The last steps of a command, over a buffer written since its acceptance, leave what `AfterCommand` says. -/
theorem launch_afterCommand {s f : State} {op dev val : Byte} (plen : PulseIndex)
    (h : SameButBuffer (acceptCommand op dev val s) f) : AfterCommand s (launch plen f) op dev val plen := by
  unfold SameButBuffer at h
  rw [h]
  unfold AfterCommand launch acceptCommand
  constructor
  · simp only []; split <;> exact Nat.le_add_right _ _
  · simp only []; split <;> rfl

theorem execOff_idle {s : State} (hs : s.st = .idle) (dev val : Byte) :
    execOff dev val s = .next (encodeOff (acceptCommand 0x00#8 dev val s)) := by simp [execOff, runCommand, hs]

theorem execOn_idle {s : State} (hs : s.st = .idle) (dev val : Byte) :
    execOn dev val s = .next (encodeOn (acceptCommand 0x01#8 dev val s)) := by simp [execOn, runCommand, hs]

theorem execGroupOff_idle {s : State} (hs : s.st = .idle) (dev val : Byte) :
    execGroupOff dev val s = .next (encodeGroupOff (acceptCommand 0x02#8 dev val s)) := by
  simp [execGroupOff, runCommand, hs]

theorem execGroupOn_idle {s : State} (hs : s.st = .idle) (dev val : Byte) :
    execGroupOn dev val s = .next (encodeGroupOn (acceptCommand 0x03#8 dev val s)) := by
  simp [execGroupOn, runCommand, hs]

theorem execDim_idle {s : State} (hs : s.st = .idle) (dev level : Byte) :
    execDim dev level s = .next (encodeDim (acceptCommand 0x04#8 dev level s)) := by simp [execDim, runCommand, hs]

theorem execSwitch_idle {s : State} (hs : s.st = .idle) (dev value : Byte) :
    execSwitch dev value s = .next (encodeSwitch (acceptCommand 0x05#8 dev value s)) := by
  simp [execSwitch, runCommand, hs]

/-- A core that is not IDLE does not accept a command (rule R236). -/
theorem runCommand_busy {s : State} (hs : s.st ≠ .idle) (op dev val : Byte) (encoding : State → State) :
    runCommand op dev val encoding s = s := by
  cases h : s.st <;> simp_all [runCommand]

/-- The frame and the frame condition of a command of 32 logical bits, its device field truncated. -/
theorem plainFields_holdsFrame {s : State} (g c : Bool) (address : Byte) :
    HoldsFrame (setDev address (setBit commandFlagOffset c (setBit groupFlagOffset g (setCtrl s))))
      (frameSym s.cfg.cid g (.bit c) (address.toNat % 16) 0) 32 := by
  intro i hi
  rw [symAt_plainFields _ _ _ _ _ hi]
  exact congrArg some (frameSym_mod s.cfg.cid g (.bit c) address.toNat 0 i (by omega)).symm

/-- What an encoding leaves: `PLEN` of 64 or 72, and every entry below it written (rules R76, R109). -/
theorem holdsFrame_written {s : State} {f : Nat → Sym} {len : Nat} (h : HoldsFrame s f len) (j : Nat)
    (hj : j < 2 * len) : (entry s j).isSome = true := by
  have hs := h (j / 2) (by omega)
  rcases Nat.mod_two_eq_zero_or_one j with hm | hm
  · have : entry s j = entry s (2 * (j / 2)) := by congr 1; omega
    rw [this]
    unfold symAt at hs
    cases he : entry s (2 * (j / 2)) <;> simp_all [pairSym]
  · have : entry s j = entry s (2 * (j / 2) + 1) := by congr 1; omega
    rw [this]
    unfold symAt at hs
    cases he : entry s (2 * (j / 2) + 1) <;> cases he' : entry s (2 * (j / 2)) <;> simp_all [pairSym]

/-- Two buffers that hold the same frame have the same entries. -/
theorem holdsFrame_entries {s t : State} {f : Nat → Sym} {len : Nat} (hs : HoldsFrame s f len)
    (ht : HoldsFrame t f len) (j : Nat) (hj : j < 2 * len) : entry s j = entry t j := by
  have h := pairSym_inj (hs (j / 2) (by omega)) (ht (j / 2) (by omega))
  rcases Nat.mod_two_eq_zero_or_one j with hm | hm
  · have e : j = 2 * (j / 2) := by omega
    rw [e]; exact h.1
  · have e : j = 2 * (j / 2) + 1 := by omega
    rw [e]; exact h.2

/-- An encoding of 32 logical bits: what it leaves, its frame, and the entries it does not write. -/
theorem plainEncoding_spec {s a : State} {op dev val : Byte} (ha : a = acceptCommand op dev val s) (g c : Bool)
    (address : Byte) :
    let t := launch plen32 (setDev address (setBit commandFlagOffset c (setBit groupFlagOffset g (setCtrl a))))
    AfterCommand s t op dev val plen32 ∧
      HoldsFrame t (frameSym s.cfg.cid g (.bit c) (address.toNat % 16) 0) 32 ∧ SameEntries s t 64 72 := by
  subst ha
  refine ⟨launch_afterCommand _ ?_, fun i hi => ?_, fun j h1 h2 => ?_⟩
  · exact (((setCtrl_eq _).trans (sameButBuffer_setBit _ _ _)).trans (sameButBuffer_setBit _ _ _)).trans (setDev_eq _ _)
  · rw [symAt_congr (launch_pb _ _)]
    exact plainFields_holdsFrame g c address i hi
  · rw [entry_congr (launch_pb _ _), entry_plainFields _ _ _ _ _ h1]
    rfl

/-- The encoding of DIM: what it leaves and its frame, under the rescale mode of the machine. -/
theorem dimEncoding_spec {s : State} (op dev level : Byte) :
    let t := encodeDim (acceptCommand op dev level s)
    AfterCommand s t op dev level plen36 ∧
      HoldsFrame t (frameSym s.cfg.cid false .dimSel (dev.toNat % 16)
        ((rescale s.params.rescaleMode level).toNat % 16)) 36 := by
  refine ⟨launch_afterCommand _ (dimFields_eq _), fun i hi => ?_⟩
  rw [encodeDim, symAt_congr (launch_pb _ _), symAt_dimFields _ _ hi, frameSym_mod _ _ _ _ _ _ hi]
  rfl

/-- The opcode latch matters to nothing that OFF writes. -/
theorem encodeOff_op (s : State) (op op' dev val : Byte) :
    encodeOff (acceptCommand op dev val s) = { encodeOff (acceptCommand op' dev val s) with op := op } := by
  have h := plainEncoding_spec (s := s) (op := op) (dev := dev) (val := val) rfl false false dev
  have h' := plainEncoding_spec (s := s) (op := op') (dev := dev) (val := val) rfl false false dev
  refine State.ext (pb_ext fun j hj => ?_) ?_ ?_ ?_ ?_ ?_ ?_ ?_ ?_ ?_ ?_ ?_ ?_ ?_ ?_ ?_ ?_ ?_ ?_ ?_
  · by_cases h64 : j < 64
    · exact holdsFrame_entries h.2.1 h'.2.1 j (by omega)
    · exact (h.2.2 j (by omega) hj).trans (h'.2.2 j (by omega) hj).symm
  all_goals simp [encodeOff]

/-- The opcode latch matters to nothing that ON writes. -/
theorem encodeOn_op (s : State) (op op' dev val : Byte) :
    encodeOn (acceptCommand op dev val s) = { encodeOn (acceptCommand op' dev val s) with op := op } := by
  have h := plainEncoding_spec (s := s) (op := op) (dev := dev) (val := val) rfl false true dev
  have h' := plainEncoding_spec (s := s) (op := op') (dev := dev) (val := val) rfl false true dev
  refine State.ext (pb_ext fun j hj => ?_) ?_ ?_ ?_ ?_ ?_ ?_ ?_ ?_ ?_ ?_ ?_ ?_ ?_ ?_ ?_ ?_ ?_ ?_ ?_
  · by_cases h64 : j < 64
    · exact holdsFrame_entries h.2.1 h'.2.1 j (by omega)
    · exact (h.2.2 j (by omega) hj).trans (h'.2.2 j (by omega) hj).symm
  all_goals simp [encodeOn]

/-- The opcode latch matters to nothing that DIM writes. -/
theorem encodeDim_op (s : State) (op op' dev level : Byte) :
    encodeDim (acceptCommand op dev level s) = { encodeDim (acceptCommand op' dev level s) with op := op } := by
  have h := dimEncoding_spec (s := s) op dev level
  have h' := dimEncoding_spec (s := s) op' dev level
  refine State.ext (pb_ext fun j hj => ?_) ?_ ?_ ?_ ?_ ?_ ?_ ?_ ?_ ?_ ?_ ?_ ?_ ?_ ?_ ?_ ?_ ?_ ?_ ?_
  · exact holdsFrame_entries h.2 h'.2 j hj
  all_goals simp [encodeDim]

/-- SWITCH's encoding is that of the command its value selects (rule R167), with its own opcode in the latch. -/
theorem encodeSwitch_op (s : State) (dev value : Byte) :
    encodeSwitch (acceptCommand 0x05#8 dev value s) =
      if value = 0#8 then { encodeOff (acceptCommand 0x00#8 dev value s) with op := 0x05#8 }
      else if value = s.params.valueMax then { encodeOn (acceptCommand 0x01#8 dev value s) with op := 0x05#8 }
      else { encodeDim (acceptCommand 0x04#8 dev value s) with op := 0x05#8 } := by
  rw [← encodeOff_op, ← encodeOn_op, ← encodeDim_op]
  rfl

/-- The frame a command word of the six builds, and its length in logical bits (rules R110, R167). -/
def commandFrame (w : CmdWord) (cid : Identity) (params : Params) : (Nat → Sym) × Nat :=
  let device := (devField w).toNat % 16
  let dimFrame := (frameSym cid false .dimSel device ((rescale params.rescaleMode (valField w)).toNat % 16), 36)
  if opField w = 0x00#8 then (frameSym cid false (.bit false) device 0, 32)
  else if opField w = 0x01#8 then (frameSym cid false (.bit true) device 0, 32)
  else if opField w = 0x02#8 then (frameSym cid true (.bit false) 0 0, 32)
  else if opField w = 0x03#8 then (frameSym cid true (.bit true) 0 0, 32)
  else if opField w = 0x04#8 then dimFrame
  else if valField w = 0#8 then (frameSym cid false (.bit false) device 0, 32)
  else if valField w = params.valueMax then (frameSym cid false (.bit true) device 0, 32)
  else dimFrame

/-- Everything a command word of the six does to an IDLE core (rules R160 to R167). -/
theorem exec_command {s : State} {w : CmdWord} (hs : s.st = .idle) (ho : opField w < 6#8) :
    ∃ t, exec (decode w) s = .next t ∧
      ((commandFrame w s.cfg.cid s.params).2 = 32 ∨ (commandFrame w s.cfg.cid s.params).2 = 36) ∧
      AfterCommand s t (opField w) (devField w) (valField w)
        (BitVec.ofNat 7 (2 * (commandFrame w s.cfg.cid s.params).2)) ∧
      HoldsFrame t (commandFrame w s.cfg.cid s.params).1 (commandFrame w s.cfg.cid s.params).2 ∧
      SameEntries s t (2 * (commandFrame w s.cfg.cid s.params).2) 72 := by
  have hdim : ∀ (op : Byte),
      AfterCommand s (encodeDim (acceptCommand op (devField w) (valField w) s)) op (devField w) (valField w) 72#7 ∧
      HoldsFrame (encodeDim (acceptCommand op (devField w) (valField w) s)) (frameSym s.cfg.cid false .dimSel
        ((devField w).toNat % 16) ((rescale s.params.rescaleMode (valField w)).toNat % 16)) 36 ∧
      SameEntries s (encodeDim (acceptCommand op (devField w) (valField w) s)) (2 * 36) 72 := fun op =>
    have h := dimEncoding_spec (s := s) op (devField w) (valField w)
    ⟨h.1, h.2, fun j a b => by omega⟩
  rcases decode_cases w with ⟨h, d⟩ | ⟨h, d⟩ | ⟨h, d⟩ | ⟨h, d⟩ | ⟨h, d⟩ | ⟨h, d⟩ | ⟨h, d⟩
  · simp only [d, commandFrame, h, if_true]
    exact ⟨_, execOff_idle hs _ _, .inl trivial, plainEncoding_spec rfl false false _⟩
  · simp only [d, commandFrame, h, BitVec.reduceEq, if_true, if_false]
    exact ⟨_, execOn_idle hs _ _, .inl trivial, plainEncoding_spec rfl false true _⟩
  · simp only [d, commandFrame, h, BitVec.reduceEq, if_true, if_false]
    exact ⟨_, execGroupOff_idle hs _ _, .inl trivial, plainEncoding_spec rfl true false 0#8⟩
  · simp only [d, commandFrame, h, BitVec.reduceEq, if_true, if_false]
    exact ⟨_, execGroupOn_idle hs _ _, .inl trivial, plainEncoding_spec rfl true true 0#8⟩
  · simp only [d, commandFrame, h, BitVec.reduceEq, if_true, if_false]
    exact ⟨_, execDim_idle hs _ _, .inr trivial, hdim _⟩
  · have hx : exec (decode w) s = .next (encodeSwitch (acceptCommand 0x05#8 (devField w) (valField w) s)) := by
      rw [d]; exact execSwitch_idle hs _ _
    rw [encodeSwitch, acceptCommand_val, acceptCommand_params] at hx
    by_cases h0 : valField w = 0#8
    · rw [if_pos h0] at hx
      simp only [commandFrame, h, BitVec.reduceEq, if_false, if_pos h0]
      exact ⟨_, hx, .inl trivial, plainEncoding_spec rfl false false _⟩
    · rw [if_neg h0] at hx
      by_cases h1 : valField w = s.params.valueMax
      · rw [if_pos h1] at hx
        simp only [commandFrame, h, BitVec.reduceEq, if_false, if_neg h0, if_pos h1]
        exact ⟨_, hx, .inl trivial, plainEncoding_spec rfl false true _⟩
      · rw [if_neg h1] at hx
        simp only [commandFrame, h, BitVec.reduceEq, if_false, if_neg h0, if_neg h1]
        exact ⟨_, hx, .inr trivial, hdim _⟩
  · have := BitVec.lt_def.1 ho
    simp at this
    omega

end Sys2Proof.Machine
end

