-- ==== Sys2Proof/Laws/PerInstr.lean ====
section
/-! SUPPORT. Statements made per instruction: which instructions have a command word (rule R111). -/

namespace Sys2Proof.Laws.Encodable

/-- The commands and the illegal command word have an encoding; the internal operations have none (rules R98, R111). -/
def isPortWord : Instr → Bool
  | .deviceOff _ _ => true
  | .deviceOn _ _ => true
  | .groupOff _ _ => true
  | .groupOn _ _ => true
  | .dim _ _ => true
  | .switch _ _ => true
  | .illegal _ _ _ => true
  | .bitconv _ _ => false
  | .rescale _ => false
  | .setbit _ _ => false
  | .setdimsel => false
  | .setctrl => false
  | .setdev _ => false
  | .setdim _ => false
  | .latch => false
  | .pulse _ => false
  | .repetition _ => false
  | .transmit _ => false
  | .construct _ _ _ _ => false

/-- An instruction has a command word exactly when it is one of the port's. -/
def Statement (i : Instr) : Prop := (encode i).isSome = isPortWord i

theorem deviceOff (dev val : Byte) : Statement (.deviceOff dev val) := rfl
theorem deviceOn (dev val : Byte) : Statement (.deviceOn dev val) := rfl
theorem groupOff (dev val : Byte) : Statement (.groupOff dev val) := rfl
theorem groupOn (dev val : Byte) : Statement (.groupOn dev val) := rfl
theorem dim (dev level : Byte) : Statement (.dim dev level) := rfl
theorem switch (dev value : Byte) : Statement (.switch dev value) := rfl
theorem illegal (op dev val : Byte) : Statement (.illegal op dev val) := rfl
theorem bitconv (v : BitVec 32) (width : Nat) : Statement (.bitconv v width) := rfl
theorem rescale (level : Byte) : Statement (.rescale level) := rfl
theorem setbit (offset : Fin 36) (value : Bool) : Statement (.setbit offset value) := rfl
theorem setdimsel : Statement .setdimsel := rfl
theorem setctrl : Statement .setctrl := rfl
theorem setdev (address : Byte) : Statement (.setdev address) := rfl
theorem setdim (level4 : Byte) : Statement (.setdim level4) := rfl
theorem latch : Statement .latch := rfl
theorem pulse (j : Fin 72) : Statement (.pulse j) := rfl
theorem repetition (p : Fin 73) : Statement (.repetition p) := rfl
theorem transmit (p : Fin 73) : Statement (.transmit p) := rfl
theorem construct (txPin : Byte) (controllerId : Option (BitVec 32)) (txCount ledPin : Option Byte) :
    Statement (.construct txPin controllerId txCount ledPin) := rfl

end Sys2Proof.Laws.Encodable
end

