-- ==== Sys2Proof/Laws/Run.lean ====
section
/-! SUPPORT. Runs of the machine, and one step by the state of the core. -/

namespace Sys2Proof.Machine

/-- Go on with the next state of an outcome; a fault or a refusal stays. -/
def andThen (o : Host.Outcome State Fault Refusal) (f : State → Host.Outcome State Fault Refusal) :
    Host.Outcome State Fault Refusal :=
  match o with
  | .next t => f t
  | .fault e => .fault e
  | .refused r => .refused r

@[simp] theorem andThen_next (t : State) (f : State → Host.Outcome State Fault Refusal) :
    andThen (.next t) f = f t := rfl

@[simp] theorem andThen_fault (e : Fault) (f : State → Host.Outcome State Fault Refusal) :
    andThen (.fault e) f = .fault e := rfl

@[simp] theorem andThen_refused (r : Refusal) (f : State → Host.Outcome State Fault Refusal) :
    andThen (.refused r) f = .refused r := rfl

theorem run_zero (s : State) : runSteps 0 s = .next s := rfl

theorem run_succ (k : Nat) (s : State) : runSteps (k + 1) s = andThen (step s) (runSteps k) := by
  rw [runSteps]
  cases step s <;> rfl

/-- The host's run of the machine is the same function. -/
theorem core_run_eq (k : Nat) (s : State) : Host.Core.run core k s = runSteps k s := by
  induction k generalizing s with
  | zero => rfl
  | succ n ih =>
    rw [run_succ]
    refine (Host.Core.run.eq_2 core s n).trans ?_
    change _ = andThen (core.step s) _
    cases core.step s with
    | next t => exact ih t
    | fault e => rfl
    | refused r => rfl

/-- A run of `a + b` steps is a run of `a` steps and then one of `b`. -/
theorem run_add (a b : Nat) (s : State) : runSteps (a + b) s = andThen (runSteps a s) (runSteps b) := by
  induction a generalizing s with
  | zero => rw [Nat.zero_add, run_zero]; rfl
  | succ n ih =>
    rw [Nat.succ_add, run_succ, run_succ]
    cases step s with
    | next t => exact ih t
    | fault e => rfl
    | refused r => rfl

/-- A state that a step does not change stays as it is (rule R249, codes 2 and 3). -/
theorem run_stuck {s : State} (h : step s = .next s) (k : Nat) : runSteps k s = .next s := by
  induction k with
  | zero => rfl
  | succ n ih => rw [run_succ, h]; exact ih

theorem step_transmitting {s : State} (h : s.st = .transmitting) : step s = sequencerStep s := by simp [step, h]

theorem step_encoding {s : State} (h : s.st = .encoding) : step s = resumeEncoding s := by simp [step, h]

theorem step_idle_none {s : State} (h : s.st = .idle) (hh : s.moves = []) : step s = .next s := by
  simp [step, h, fetch, hh]

theorem step_idle_command {s : State} {w : CmdWord} {rest : List Move} (h : s.st = .idle)
    (hh : s.moves = .command w :: rest) : step s = exec (decode w) { s with moves := rest } := by
  simp [step, h, fetch, hh]

theorem step_idle_construct {s : State} {txPin : Byte} {controllerId : Option (BitVec 32)} {txCount ledPin : Option Byte}
    {rest : List Move} (h : s.st = .idle) (hh : s.moves = .construct txPin controllerId txCount ledPin :: rest) :
    step s = exec (.construct txPin controllerId txCount ledPin) { s with moves := rest } := by
  simp [step, h, fetch, hh]

theorem step_idle_pause {s : State} {d : Nat} {rest : List Move} (h : s.st = .idle) (hh : s.moves = .pause d :: rest) :
    step s = .next { s with moves := rest, now := s.now + d } := by
  simp [step, h, fetch, hh]

theorem step_idle_platform {s : State} {locks yields : Option Nat} {rest : List Move} (h : s.st = .idle)
    (hh : s.moves = .platform locks yields :: rest) :
    step s = .next { s with moves := rest, lockAnswers := locks, yieldAnswers := yields } := by
  simp [step, h, fetch, hh]

end Sys2Proof.Machine
end

