-- ==== Sys2Proof/Laws/Transmit.lean ====
section
/-! SUPPORT. What the transmitter's operations do (rules R190 to R193), and the count of the platform's answers. -/

namespace Sys2Proof.Machine

theorem wait_locked {s : State} (h : s.lock = .locked) (d : Delay) :
    wait d s = { s with wave := s.wave ++ [.wait d], now := s.now + d.toNat } := by simp [wait, h, emit]

theorem wait_unlocked {s : State} (h : s.lock = .unlocked) (d : Delay) :
    wait d s = { s with
      wave := s.wave ++ [.wait d], now := s.now + d.toNat + Config.overshoot s.draws, draws := s.draws + 1 } := by
  simp [wait, h, emit]

/-- A wait is a lower bound (rule R198), and exact while the lock is held (rule R197). -/
theorem wait_now (d : Delay) (s : State) :
    s.now + d.toNat ≤ (wait d s).now ∧ (s.lock = .locked → (wait d s).now = s.now + d.toNat) := by
  cases h : s.lock
  · rw [wait_unlocked h]; exact ⟨Nat.le_add_right _ _, by simp⟩
  · rw [wait_locked h]; simp

@[simp] theorem waitSum_append (xs ys : List Event) : waitSum (xs ++ ys) = waitSum xs + waitSum ys := by
  induction xs with
  | nil => simp [waitSum]
  | cons e es ih => cases e <;> simp [waitSum, ih, Nat.add_assoc]

@[simp] theorem enough_zero (a : Option Nat) : enough 0 a = true := by cases a <;> simp [enough]

@[simp] theorem spend_zero (a : Option Nat) : spend 0 a = a := by cases a <;> simp [spend]

@[simp] theorem spend_spend (m n : Nat) (a : Option Nat) : spend m (spend n a) = spend (n + m) a := by
  cases a <;> simp [spend, Nat.sub_sub]

/-- Answers for `m + n` requests are answers for `m` and then for `n`. -/
theorem enough_add (m n : Nat) (a : Option Nat) :
    enough (m + n) a = true ↔ enough m a = true ∧ enough n (spend m a) = true := by
  cases a with
  | none => simp [enough, spend]
  | some k => simp only [enough, spend, decide_eq_true_eq]; omega

theorem enter_granted {s : State} (h : enough 1 s.lockAnswers = true) : enter s = some (granted s) := by simp [enter, h]

theorem enter_withheld {s : State} (h : s.lockAnswers = some 0) : enter s = none := by simp [enter, h, enough]

theorem yieldTurn_answered {s : State} (h : enough 1 s.yieldAnswers = true) : yieldTurn s = some (yielded s) := by
  simp [yieldTurn, h]

theorem yieldTurn_withheld {s : State} (h : s.yieldAnswers = some 0) : yieldTurn s = none := by
  simp [yieldTurn, h, enough]

/-- `t` is `s` after the pin was driven: it ends low, the trace has grown by `es`, and the time by at least the waits of
`es`, exactly that much while the lock is held. -/
abbrev Drove (s t : State) (es : List Event) : Prop :=
  t = { s with tx := false, wave := s.wave ++ es, now := t.now, draws := t.draws } ∧
    s.now + waitSum es ≤ t.now ∧ (s.lock = .locked → t.now = s.now + waitSum es)

theorem Drove.trans {s t u : State} {es fs : List Event} (h : Drove s t es) (h' : Drove t u fs) : Drove s u (es ++ fs) := by
  obtain ⟨h1, h2, h3⟩ := h
  obtain ⟨h1', h2', h3'⟩ := h'
  have hl : t.lock = s.lock := (congrArg State.lock h1).trans rfl
  refine ⟨?_, by rw [waitSum_append]; omega, fun hs => ?_⟩
  · rw [State.ext_iff] at h1 h1' ⊢
    simp_all
  · rw [waitSum_append, h3' (hl.trans hs), h3 hs]; omega

/-- A high period of `a` µs and a low period of `b` µs (rules R95, R96). -/
theorem highLow_drove (a b : Delay) (s : State) :
    Drove s (wait b (driveTx false (wait a (driveTx true s)))) [.tx true, .wait a, .tx false, .wait b] := by
  cases h : s.lock
  · refine ⟨?_, ?_, fun hl => absurd (h.symm.trans hl) (by decide)⟩
    · simp [wait, driveTx, emit, h]
    · simp [wait, driveTx, emit, h, waitSum]; omega
  · refine ⟨?_, ?_, ?_⟩
    · simp [wait, driveTx, emit, h]
    · simp [wait, driveTx, emit, h, waitSum]; omega
    · simp [wait, driveTx, emit, h, waitSum]; omega

theorem latchPulse_drove (s : State) : Drove s (latchPulse s) latchTrace := highLow_drove _ _ s

/-- PULSE of a written entry (rule R191). -/
theorem dataPulse_drove {s : State} {j : Nat} {d : Micros} (h : entry s j = some d) :
    ∃ t, dataPulse j s = .ok t ∧ Drove s t (pulseTrace d) := by
  refine ⟨_, ?_, highLow_drove tHigh d s⟩
  simp [dataPulse, pbRead_of_entry h, pulseLow, pulseHigh]

/-- The low periods from an index on: `MemRead(j, n)`. -/
def lowFrom (s : State) (j n : Nat) : List Micros :=
  (List.range n).map fun k => (entry s (j + k)).getD 0#16

theorem lowFrom_succ (s : State) (j n : Nat) :
    lowFrom s j (n + 1) = (entry s j).getD 0#16 :: lowFrom s (j + 1) n := by
  simp [lowFrom, List.range_succ_eq_map, Nat.add_comm, Nat.add_left_comm]

theorem lowFrom_zero (s : State) (n : Nat) : lowFrom s 0 n = lowPeriods s n := by simp [lowFrom, lowPeriods]

theorem lowFrom_congr {s t : State} (h : t.pb = s.pb) (j n : Nat) : lowFrom t j n = lowFrom s j n := by
  simp [lowFrom, entry_congr h]

theorem Drove.pb {s t : State} {es : List Event} (h : Drove s t es) : t.pb = s.pb := (congrArg State.pb h.1).trans rfl

/-- Data pulses of written entries, at least one of them (rule R192). -/
theorem dataPulses_drove {n j : Nat} {s : State} (hn : 0 < n) (h : ∀ k < n, (entry s (j + k)).isSome = true) :
    ∃ t, dataPulses n j s = .ok t ∧ Drove s t ((lowFrom s j n).flatMap pulseTrace) := by
  induction n generalizing j s with
  | zero => omega
  | succ m ih =>
    obtain ⟨d, hd⟩ := Option.isSome_iff_exists.1 (h 0 (by omega))
    rw [Nat.add_zero] at hd
    obtain ⟨t, ht, hdr⟩ := dataPulse_drove hd
    have hp := hdr.pb
    rw [lowFrom_succ, List.flatMap_cons, hd, Option.getD_some]
    by_cases hm : m = 0
    · subst hm
      exact ⟨t, by simp [dataPulses, ht], by simpa [lowFrom] using hdr⟩
    · obtain ⟨u, hu, hdu⟩ := ih (j := j + 1) (s := t) (by omega) fun k hk => by
        rw [entry_congr hp]; have := h (k + 1) (by omega); rwa [show j + (k + 1) = j + 1 + k by omega] at this
      exact ⟨u, by simp [dataPulses, ht, hu], by rw [lowFrom_congr hp] at hdu; exact hdr.trans hdu⟩

end Sys2Proof.Machine
end

