-- ==== Sys2Proof/Tests/Slice0.lean ====
section
/-! SUPPORT. Tests. Part 1: ill-formed terms. Part 2: words written out from 30_encoding.md. Part 3: one step on small
states, with the results of 95_test_vectors.md. Part 4: a witness for the hypotheses of each statement. -/

namespace Sys2Proof.Tests.Slice0

open Sys2Proof Sys2Proof.Machine

set_option Elab.async false

/-! ## 1. Well-formedness -/

theorem test_illformed_illegal : (Instr.illegal 5#8 0#8 0#8).wellFormed = false := by decide
theorem test_wellformed_illegal : (Instr.illegal 6#8 0#8 0#8).wellFormed = true := by decide
theorem test_illformed_bitconv : (Instr.bitconv 5#32 5).wellFormed = false := by decide
theorem test_wellformed_bitconv : (Instr.bitconv 5#32 4).wellFormed = true ∧ (Instr.bitconv 5#32 26).wellFormed = true := by
  decide

/-! ## 2. Decoding: each word is `op`, `dev`, `val` as rules R98 and R99 lay them out -/

/-- 95_test_vectors.md 2.3: `0x0005AB`. -/
theorem test_decode_off : decode 0b00000000_00000101_10101011#24 = .deviceOff 0x05#8 0xAB#8 := by decide
/-- 95_test_vectors.md P4: `0x010F00`. -/
theorem test_decode_on : decode 0b00000001_00001111_00000000#24 = .deviceOn 0x0F#8 0x00#8 := by decide
/-- 95_test_vectors.md 2.5: `0x020000`. -/
theorem test_decode_group_off : decode 0b00000010_00000000_00000000#24 = .groupOff 0x00#8 0x00#8 := by decide
/-- 95_test_vectors.md 2.5: `0x03FFFF`. -/
theorem test_decode_group_on : decode 0b00000011_11111111_11111111#24 = .groupOn 0xFF#8 0xFF#8 := by decide
/-- 95_test_vectors.md V2: `0x040332`. -/
theorem test_decode_dim : decode 0b00000100_00000011_00110010#24 = .dim 0x03#8 50#8 := by decide
/-- 95_test_vectors.md 2.5: `0x051519`. -/
theorem test_decode_switch : decode 0b00000101_00010101_00011001#24 = .switch 21#8 25#8 := by decide
/-- 95_test_vectors.md 2.6: `0x060000` is the first illegal word, `0x050000` the nearest legal one. -/
theorem test_decode_illegal_boundary : decode 0b00000110_00000000_00000000#24 = .illegal 6#8 0#8 0#8 ∧
    decode 0b00000101_00000000_00000000#24 = .switch 0#8 0#8 := by decide
/-- 95_test_vectors.md 2.6: `0xFF0000`. -/
theorem test_decode_illegal_top : decode 0b11111111_00000000_00000000#24 = .illegal 0xFF#8 0#8 0#8 := by decide
/-- The same word through the numbering of spec/opcode_table.json; a word longer than the port is refused. -/
theorem test_table_word : decodeTableWord 24 0x07ABCD = some (.illegal 7#8 0xAB#8 0xCD#8) ∧
    decodeTableWord 25 0 = none := by decide
theorem test_encode_dim : encode (.dim 0x03#8 50#8) = some 0x040332#24 := by decide
theorem test_encode_internal : encode (.setbit 0 true) = none ∧ encode .latch = none := by decide

/-! ## 3. One step -/

/-- The next state of an instruction, for the fields a test looks at. -/
def after (i : Instr) (s : State) : State :=
  match exec i s with
  | .next t => t
  | .fault _ => s
  | .refused _ => s

/-- The next state of a step. -/
def stepped (s : State) : State :=
  match step s with
  | .next t => t
  | .fault _ => s
  | .refused _ => s

/-- Buffer entries `lo` to `lo + n - 1`. -/
def pulses (s : State) (lo n : Nat) : List (Option Micros) := (List.range n).map fun k => entry s (lo + k)

/-- The notation of 95_test_vectors.md: `short` is S, `long` is L. -/
abbrev short : Option Micros := some 280#16
abbrev long : Option Micros := some 1240#16

/-- Frame symbols as digits: 2 stands for the dim selector. -/
def symbols (ds : List Nat) : List (Option Sym) :=
  ds.map fun d => some (if d = 0 then .bit false else if d = 1 then .bit true else .dimSel)

/-- The 26 bits of 1234567 (95_test_vectors.md, conventions). -/
def ctrlDigits : List Nat := [0,0,0,0,0,1,0,0,1,0,1,1,0,1,0,1,1,0,1,0,0,0,0,1,1,1]

/-- A machine with another `VALUE_MAX`. -/
def withValueMax (v : Byte) : State := { State.reset with params := { valueMax := v, rescaleMode := .intended } }

/-- A machine with `RESCALE_MODE = reference`. -/
def referenceMode : State := { State.reset with params := { valueMax := 1#8, rescaleMode := .reference } }

/-- The word is presented to the core as it is after reset. -/
def presentedAtReset (w : Nat) : State := State.reset.withFetchWord 24 w

-- V1
theorem test_off_frame : frameOf (stepped (presentedAtReset 0x000500)) 32 = symbols (ctrlDigits ++ [0,0] ++ [0,1,0,1]) := by decide +kernel
theorem test_off_launch : (stepped (presentedAtReset 0x0005AB)).st = .transmitting ∧
    (stepped (presentedAtReset 0x0005AB)).plen = 64#7 ∧ (stepped (presentedAtReset 0x0005AB)).val = 0xAB#8 ∧
    entry (stepped (presentedAtReset 0x0005AB)) 64 = none := by decide +kernel
-- P4: ON 15 with no repetition goes back to IDLE and sends nothing.
theorem test_on_frame : frameOf (after (.deviceOn 15#8 0#8) State.reset) 32 = symbols (ctrlDigits ++ [0,1] ++ [1,1,1,1]) := by decide +kernel
theorem test_on_zero_count :
    (after (.deviceOn 15#8 0#8) { State.reset with cfg := { State.reset.cfg with txCount := 0#8 } }).st = .idle ∧
    (after (.deviceOn 15#8 0#8) { State.reset with cfg := { State.reset.cfg with txCount := 0#8 } }).wave = [] := by decide +kernel
-- 2.5 and V3
theorem test_group_off_frame : frameOf (after (.groupOff 0#8 0#8) State.reset) 32 = symbols (ctrlDigits ++ [1,0] ++ [0,0,0,0]) := by decide +kernel
theorem test_group_on_junk : frameOf (after (.groupOn 0xFF#8 0xFF#8) State.reset) 32 = symbols (ctrlDigits ++ [1,1] ++ [0,0,0,0]) := by decide +kernel
-- V2, with `RESCALE_MODE` intended and reference
theorem test_dim_frame : frameOf (after (.dim 3#8 50#8) State.reset) 36 = symbols (ctrlDigits ++ [0,2] ++ [0,0,1,1] ++ [1,0,0,0]) := by decide +kernel
theorem test_dim_reference : pulses (after (.dim 3#8 50#8) referenceMode) 64 8 = [short, long, short, long, short, long, short, long] := by decide +kernel
-- 2.5: SWITCH 9, 1 under both sentinels
theorem test_switch_on : (frameOf (after (.switch 9#8 1#8) (withValueMax 1#8)) 32).drop 26 = symbols [0,1,1,0,0,1] ∧
    (after (.switch 9#8 1#8) (withValueMax 1#8)).plen = 64#7 := by decide +kernel
theorem test_switch_dim : (frameOf (after (.switch 9#8 1#8) (withValueMax 255#8)) 36).drop 26 = symbols [0,2,1,0,0,1,0,0,0,0] ∧
    (after (.switch 9#8 1#8) (withValueMax 255#8)).plen = 72#7 := by decide +kernel
-- 2.6
theorem test_illegal_flag : step (presentedAtReset 0x07ABCD) = .next { State.reset with illCmd := true } := rfl
-- P4: a word held while the core is busy is not accepted (rule R236).
theorem test_illegal_busy : exec (.illegal 6#8 0#8 0#8) { State.reset with st := .transmitting } =
    .next { State.reset with st := .transmitting } := rfl
-- 2.1
theorem test_bitconv_truncates : (after (.bitconv 38#32 4) State.reset).answer = .bits [false, true, true, false] := by decide +kernel
theorem test_bitconv_msb_first : (after (.bitconv 8#32 4) State.reset).answer = .bits [true, false, false, false] ∧
    bitval [false, true, false, true] = 5 := by decide +kernel
-- 2.4
theorem test_rescale_half_up : (after (.rescale 50#8) State.reset).answer = .number 8#8 ∧
    (after (.rescale 49#8) State.reset).answer = .number 7#8 := by decide +kernel
theorem test_rescale_ends : (after (.rescale 255#8) State.reset).answer = .number 38#8 ∧
    (after (.rescale 100#8) State.reset).answer = .number 15#8 ∧ (after (.rescale 100#8) referenceMode).answer = .number 0#8 := by decide +kernel
-- 2.2
theorem test_setbit_last_pair : pulses (after (.setbit 35 true) State.reset) 69 3 = [none, long, short] := by decide +kernel
theorem test_setbit_replaces_selector : pulses (after (.setbit 27 true) (after .setdimsel State.reset)) 53 4 = [none, long, short, none] := by decide +kernel
theorem test_setdimsel : pulses (after .setdimsel State.reset) 53 4 = [none, short, short, none] := by decide +kernel
theorem test_setctrl_default : (frameOf (after .setctrl State.reset) 27) = symbols ctrlDigits ++ [none] := by decide +kernel
theorem test_setctrl_alternating :
    pulses (after .setctrl { State.reset with cfg := { State.reset.cfg with cid := 0x2AAAAAA#26 } }) 0 52 =
      (List.replicate 13 [long, short, short, long]).flatten := by decide +kernel
theorem test_setdev_five : pulses (after (.setdev 5#8) State.reset) 55 10 =
    [none, short, long, long, short, short, long, long, short, none] := by decide +kernel
theorem test_setdev_truncates : pulses (after (.setdev 21#8) State.reset) 56 8 = pulses (after (.setdev 5#8) State.reset) 56 8 := by decide +kernel
theorem test_setdim_eight : pulses (after (.setdim 8#8) State.reset) 63 9 =
    [none, long, short, short, long, short, long, short, long] := by decide +kernel
theorem test_setdim_sixteen : pulses (after (.setdim 16#8) State.reset) 64 8 =
    [short, long, short, long, short, long, short, long] := by decide +kernel
-- 2.7
theorem test_latch_events : (after .latch State.reset).wave = [.tx true, .wait 280#16, .tx false, .wait 2675#16] := by decide +kernel
theorem test_latch_exact_when_locked : (after .latch { State.reset with lock := .locked }).now = 2955 := by decide +kernel
theorem test_pulse_events : (after (.pulse 1) (after (.setbit 0 false) State.reset)).wave =
    [.tx true, .wait 270#16, .tx false, .wait 1240#16] := by decide +kernel
theorem test_pulse_unwritten : exec (.pulse 71) State.reset = .fault .unwrittenRead := rfl
theorem test_repetition_no_pulse : (after (.repetition 0) State.reset).wave =
    [.enter, .tx true, .wait 280#16, .tx false, .wait 2675#16, .tx true, .wait 280#16, .tx false, .wait 2675#16, .leave, .wait 9500#16, .yield] := by
  decide +kernel
theorem test_repetition_indicator :
    (after (.repetition 1) { (after (.setbit 0 false) State.reset) with cfg := { State.reset.cfg with txPin := 7#8, ledPin := 13#8 } }).wave =
    [.enter, .led true, .tx true, .wait 280#16, .tx false, .wait 2675#16, .tx true, .wait 270#16, .tx false, .wait 280#16,
      .tx true, .wait 280#16, .tx false, .wait 2675#16, .led false, .leave, .wait 9500#16, .yield] := by decide +kernel
theorem test_transmit_count_and_zero : (after (.transmit 2) { (after (.setbit 0 true) State.reset) with cfg := { State.reset.cfg with txCount := 2#8 } }).wave.length =
    2 * (4 * 2 + 12) ∧
    (after (.transmit 72) { State.reset with cfg := { State.reset.cfg with txCount := 0#8 } }).wave = [] := by decide +kernel
/-- A platform that grants one lock request of two: one repetition is sent and the second is never begun (rule R195). -/
theorem test_transmit_withheld : (after (.transmit 0) { State.reset with lockAnswers := some 1 }).wave.count .leave = 1 ∧
    (after (.transmit 0) { State.reset with lockAnswers := some 1 }).seq = { rep := 1#8, phase := .lockReq, pidx := 0#7 } := by
  decide +kernel
-- 2.8
theorem test_construct_truncates : (after (.construct 7#8 (some 67108869#32) none none) State.reset).cfg =
    { cid := 5#26, txCount := 10#8, txPin := 7#8, ledPin := 0#8 } := by decide +kernel
theorem test_construct_refused : exec (.construct 7#8 none none (some 7#8)) State.reset = .refused .indicatorOnOutputPin ∧
    (after (.construct 7#8 none none (some 13#8)) State.reset).cfg.ledPin = 13#8 := ⟨rfl, rfl⟩

/-! The step table of rule R199. -/

/-- The buffer that OFF 5 leaves, and in entries 64 to 71 nothing. -/
def offBuffer : Vector (Option Micros) 72 := (after (.deviceOff 5#8 0#8) State.reset).pb

/-- The buffer that DIM 3, 50 leaves. -/
def dimBuffer : Vector (Option Micros) 72 := (after (.dim 3#8 50#8) State.reset).pb

/-- A core at one position of its transmission, with an enabled indicator. -/
def sending (pb : Vector (Option Micros) 72) (plen : PulseIndex) (rep : Byte) (phase : Phase) (pidx : PulseIndex) : State :=
  { State.reset with
    cfg := { State.reset.cfg with txPin := 7#8, txCount := 2#8, ledPin := 13#8 }
    pb := pb
    plen := plen
    st := .transmitting
    seq := { rep := rep, phase := phase, pidx := pidx }
    lock := if phaseLocked phase then .locked else .unlocked
    tx := phaseTxHigh phase
    led := phaseLedHigh phase
    wave := if phaseLocked phase then [.enter] else [] }

theorem test_step_lock : (stepped (sending offBuffer 64#7 0#8 .lockReq 0#7)).lock = .locked ∧
    (stepped (sending offBuffer 64#7 0#8 .lockReq 0#7)).seq.phase = .ledOn := by decide +kernel
theorem test_step_indicator : (stepped (sending offBuffer 64#7 0#8 .ledOn 0#7)).led = true ∧
    (stepped (sending offBuffer 64#7 0#8 .ledOff 64#7)).led = false := by decide +kernel
theorem test_step_last_pulse : (stepped (sending offBuffer 64#7 0#8 .pulseLo 63#7)).seq = { rep := 0#8, phase := .postHi, pidx := 64#7 } ∧
    (stepped (sending offBuffer 64#7 0#8 .pulseLo 62#7)).seq = { rep := 0#8, phase := .pulseHi, pidx := 63#7 } := by decide +kernel
theorem test_step_last_yield : (stepped (sending offBuffer 64#7 1#8 .yield 64#7)).st = .idle ∧
    (stepped (sending offBuffer 64#7 0#8 .yield 64#7)).seq = { rep := 1#8, phase := .lockReq, pidx := 0#7 } := by decide +kernel

/-! ## 4. Witnesses: for each statement with hypotheses, a state and operands that meet them, and one for each clause -/

/-- Whether an outcome is a next state. -/
def continues (o : Host.Outcome State Fault Refusal) : Bool :=
  match o with
  | .next _ => true
  | .fault _ => false
  | .refused _ => false

theorem continues_next {o : Host.Outcome State Fault Refusal} (h : continues o = true) : ∃ t, o = .next t := by
  cases o with
  | next t => exact ⟨t, rfl⟩
  | fault f => exact absurd h Bool.false_ne_true
  | refused r => exact absurd h Bool.false_ne_true

/-- An ENCODING core: `op` is what its opcode latch holds. -/
def encodingCore (op : Byte) : State := { State.reset with st := .encoding, op := op, dev := 5#8 }

/-- The same core with no platform answer. -/
def noAnswer (s : State) : State := { s with lockAnswers := some 0, yieldAnswers := some 0 }

/-- A core after reset with a repetition count. -/
def withCount (n : Byte) : State := { State.reset with cfg := { State.reset.cfg with txCount := n } }

/-- A core after reset whose buffer holds a DIM frame. -/
def afterDim (n : Byte) : State := { withCount n with pb := dimBuffer, plen := 72#7 }

theorem wit_DecodeInvertsEncode : (Instr.illegal 6#8 0xFF#8 0xFF#8).wellFormed = true ∧
    encode (.illegal 6#8 0xFF#8 0xFF#8) = some 0x06FFFF#24 := by decide

theorem wit_StepKeepsTheInvariant_idle : CoreInv State.reset ∧ step State.reset = .next State.reset :=
  ⟨by refine ⟨?_, ?_, ?_, ?_, ?_, ?_, ?_, ?_⟩ <;> decide +kernel, rfl⟩
theorem wit_StepKeepsTheInvariant_command :
    CoreInv (presentedAtReset 0x0403FF) ∧ ∃ t, step (presentedAtReset 0x0403FF) = .next t :=
  ⟨by refine ⟨?_, ?_, ?_, ?_, ?_, ?_, ?_, ?_⟩ <;> decide +kernel, continues_next (by decide +kernel)⟩
theorem wit_StepKeepsTheInvariant_encoding : CoreInv (encodingCore 5#8) ∧ ∃ t, step (encodingCore 5#8) = .next t :=
  ⟨by refine ⟨?_, ?_, ?_, ?_, ?_, ?_, ?_, ?_⟩ <;> decide +kernel, continues_next (by decide +kernel)⟩
theorem wit_StepKeepsTheInvariant_pulse : CoreInv (sending dimBuffer 72#7 1#8 .pulseLo 71#7) ∧
    ∃ t, step (sending dimBuffer 72#7 1#8 .pulseLo 71#7) = .next t :=
  ⟨by refine ⟨?_, ?_, ?_, ?_, ?_, ?_, ?_, ?_⟩ <;> decide +kernel, continues_next (by decide +kernel)⟩
theorem wit_StepKeepsTheInvariant_yield : CoreInv (sending offBuffer 64#7 1#8 .yield 64#7) ∧
    ∃ t, step (sending offBuffer 64#7 1#8 .yield 64#7) = .next t :=
  ⟨by refine ⟨?_, ?_, ?_, ?_, ?_, ?_, ?_, ?_⟩ <;> decide +kernel, continues_next (by decide +kernel)⟩

theorem wit_NoStepReadsAnUnwrittenEntry : CoreInv (encodingCore 6#8) ∧ step (encodingCore 6#8) = .fault .encodingNoCommand :=
  ⟨by refine ⟨?_, ?_, ?_, ?_, ?_, ?_, ?_, ?_⟩ <;> decide +kernel, rfl⟩

theorem wit_ConstructWritesTheConfiguration : State.reset.st = .idle ∧
    ((none : Option Byte).getD 0#8 = 0#8 ∨ (none : Option Byte).getD 0#8 ≠ 0#8) ∧
    ((some 13#8 : Option Byte).getD 0#8 = 0#8 ∨ (some 13#8 : Option Byte).getD 0#8 ≠ 7#8) ∧
    (some 0xFFFFFFFF#32 : Option (BitVec 32)) = some 0xFFFFFFFF#32 ∧ (some 0#8 : Option Byte) = some 0#8 := by decide
theorem wit_ConstructRefusesWhatTheSpecRefuses : State.reset.st = .idle ∧ (1#8 : Byte) ≠ 0#8 ∧
    (encodingCore 0#8).st ≠ .idle ∧ (sending offBuffer 64#7 0#8 .gap 64#7).st ≠ .idle := by decide +kernel
theorem wit_OnlyConstructWritesTheConfiguration :
    (∀ txPin controllerId txCount ledPin, Instr.setctrl ≠ .construct txPin controllerId txCount ledPin) ∧
    ∃ t, exec .setctrl State.reset = .next t := ⟨by intros; simp, _, rfl⟩

theorem wit_StepRunsThePresentedWord : (presentedAtReset 0x060000).st = .idle ∧
    (presentedAtReset 0x060000).moves = [.command 0x060000#24] := by decide
theorem wit_StepRunsTheConstruction : ∃ s : State, s.st = .idle ∧ s.moves = [.construct 7#8 none none none] :=
  ⟨{ State.reset with moves := [.construct 7#8 none none none] }, rfl, rfl⟩
theorem wit_PlacedWordRuns : decodeTableWord 24 0xFFFFFF = some (.illegal 0xFF#8 0xFF#8 0xFF#8) ∧
    decodeTableWord 8 0 = some (.deviceOff 0#8 0#8) := by decide
theorem wit_IdleCoreWaits : State.reset.st = .idle ∧ State.reset.moves = [] := by decide
theorem wit_IdleCoreTakesPausesAndAnswers : ∃ s t : State, s.st = .idle ∧ s.moves = [.pause 1000] ∧ t.st = .idle ∧
    t.moves = [.platform (some 1) none] :=
  ⟨{ State.reset with moves := [.pause 1000] }, { State.reset with moves := [.platform (some 1) none] }, rfl, rfl, rfl, rfl⟩
theorem wit_BusyCoreAcceptsNoWord : (encodingCore 0#8).st ≠ .idle ∧ (sending offBuffer 64#7 0#8 .lockReq 0#7).st ≠ .idle := by
  decide +kernel
theorem wit_BusyStepIgnoresTheHost : (encodingCore 0#8).st ≠ .idle ∧ (∃ t, step (encodingCore 0#8) = .next t) ∧
    (encodingCore 6#8).st ≠ .idle ∧ step (encodingCore 6#8) = .fault .encodingNoCommand :=
  ⟨by decide, ⟨_, rfl⟩, by decide, rfl⟩
theorem wit_IllegalWordSetsTheFlagOnly : State.reset.st = .idle ∧ 6 ≤ (6#8 : Byte).toNat ∧ 6 ≤ (255#8 : Byte).toNat := by decide
theorem wit_IllegalFlagIsSticky_kept : ∃ s t : State, step s = .next t ∧ s.illCmd = true ∧ t.illCmd = true :=
  ⟨{ presentedAtReset 0x000500 with illCmd := true }, _, rfl, rfl, rfl⟩
theorem wit_IllegalFlagIsSticky_cleared : ∃ s t : State, step s = .next t ∧ s.illCmd = true ∧ t.illCmd = false ∧
    s.st = .idle ∧ s.moves = [.construct 0#8 none none none] :=
  ⟨{ State.reset with illCmd := true, moves := [.construct 0#8 none none none] }, _, rfl, rfl, rfl, rfl, rfl⟩

/-- OFF, ON, the group commands and SWITCH ask for an IDLE core alone. -/
theorem wit_commands : State.reset.st = .idle := rfl
theorem wit_DimSendsItsFrame : State.reset.st = .idle ∧ State.reset.params.rescaleMode = .intended ∧
    referenceMode.st = .idle ∧ referenceMode.params.rescaleMode = .reference := by decide
theorem wit_SameCommandTwiceSameBuffer : State.reset.st = .idle ∧ ∃ t u, exec (decode 0x040332#24) State.reset = .next t ∧
    exec (decode 0x040332#24) { t with st := .idle } = .next u := ⟨rfl, _, _, rfl, rfl⟩
theorem wit_TransmittedEntriesForgetThePast : State.reset.st = .idle ∧ (afterDim 10#8).st = .idle ∧ opField 0x05FFFF#24 < 6#8 ∧
    State.reset.cfg.cid = (afterDim 10#8).cfg.cid ∧ State.reset.params = (afterDim 10#8).params ∧
    (∃ t, exec (decode 0x05FFFF#24) State.reset = .next t) ∧ (∃ t, exec (decode 0x05FFFF#24) (afterDim 10#8) = .next t) :=
  ⟨rfl, rfl, by decide, rfl, rfl, ⟨_, rfl⟩, ⟨_, rfl⟩⟩
theorem wit_ZeroCountSendsNothing : (withCount 0#8).st = .idle ∧ opField 0x050000#24 < 6#8 ∧ (withCount 0#8).cfg.txCount = 0#8 := by
  decide

theorem wit_RescaleFollowsItsTable : State.reset.params.rescaleMode = .intended ∧ referenceMode.params.rescaleMode = .reference ∧
    (100#8 : Byte).toNat ≤ 100 ∧ (0#8 : Byte).toNat ≤ 100 := by decide
theorem wit_SetbitWritesOnePair : (0 : Nat) ≠ 2 * (35 : Fin 36).val ∧ (0 : Nat) ≠ 2 * (35 : Fin 36).val + 1 := by decide
theorem wit_SetctrlFieldReadsBack : 25 < 26 ∧ 52 ≤ 52 ∧ 52 ≤ 71 := by decide
theorem wit_SetdimselWritesTheSelector : 53 ≠ 54 ∧ 53 ≠ 55 ∧ 56 ≠ 54 ∧ 56 ≠ 55 := by decide
theorem wit_SetdevWritesTheDeviceField : 3 < 4 ∧ (55 < 56 ∨ 64 ≤ 55) ∧ (64 < 56 ∨ 64 ≤ 64) := by decide
theorem wit_SetdimWritesTheDimField : 3 < 4 ∧ 63 < 64 := by decide
theorem wit_OffAndOnDifferInTheCommandFlag : State.reset.st = .idle ∧ 63 < 64 ∧ 63 ≠ 54 ∧ 63 ≠ 55 := by decide
theorem wit_FieldWritesCommute_flag : Instr.setbit 27 true ∈ [Instr.setbit 27 true, .setdimsel] ∧
    Instr.setbit 27 true ∈ [Instr.setctrl, .setbit 26 true, .setbit 27 true, .setdev 5#8, .setdim 8#8] ∧
    Instr.setbit 26 true ∈ [Instr.setctrl, .setbit 26 true, .setbit 27 true, .setdev 5#8, .setdim 8#8] ∧
    Instr.setbit 27 true ≠ .setbit 26 true := by decide
theorem wit_FieldWritesCommute : Instr.setdimsel ∈ [Instr.setbit 27 true, .setdimsel] ∧
    Instr.setdimsel ∈ [Instr.setctrl, .setbit 26 true, .setdimsel, .setdev 5#8, .setdim 8#8] ∧
    Instr.setdim 8#8 ∈ [Instr.setctrl, .setbit 26 true, .setdimsel, .setdev 5#8, .setdim 8#8] ∧
    Instr.setdimsel ≠ .setdim 8#8 := by decide

theorem wit_PulseDrivesItsEntry : entry (afterDim 1#8) (71 : Fin 72).val = some 1240#16 ∧
    entry State.reset (71 : Fin 72).val = none := by decide +kernel
/-- The same core with a platform that answers so many requests of each kind and then none. -/
def answering (locks yields : Nat) (s : State) : State := { s with lockAnswers := some locks, yieldAnswers := some yields }

theorem wit_RepetitionAppendsItsTrace : enough 1 (answering 1 1 (afterDim 1#8)).lockAnswers = true ∧
    enough 1 (answering 1 1 (afterDim 1#8)).yieldAnswers = true ∧
    (∀ j < (72 : Fin 73).val, (entry (answering 1 1 (afterDim 1#8)) j).isSome = true) := by decide +kernel
theorem wit_RepetitionAppendsItsTrace_empty : enough 1 State.reset.lockAnswers = true ∧
    enough 1 State.reset.yieldAnswers = true ∧ (∀ j < (0 : Fin 73).val, (entry State.reset j).isSome = true) := by
  decide +kernel
theorem wit_TransmitAppendsItsTrace_none : enough (afterDim 0#8).cfg.txCount.toNat (answering 0 0 (afterDim 0#8)).lockAnswers = true ∧
    enough (afterDim 0#8).cfg.txCount.toNat (answering 0 0 (afterDim 0#8)).yieldAnswers = true ∧
    (∀ j < (72 : Fin 73).val, (entry (answering 0 0 (afterDim 0#8)) j).isSome = true) := by decide +kernel
theorem wit_TransmitAppendsItsTrace : enough (afterDim 255#8).cfg.txCount.toNat (answering 255 255 (afterDim 255#8)).lockAnswers = true ∧
    enough (afterDim 255#8).cfg.txCount.toNat (answering 255 255 (afterDim 255#8)).yieldAnswers = true ∧
    (∀ j < (72 : Fin 73).val, (entry (answering 255 255 (afterDim 255#8)) j).isSome = true) := by decide +kernel
/-- The first lock request, and the last one, is withheld. -/
theorem wit_TransmitStandsAtTheWithheldRequest_lock :
    0 < (afterDim 2#8).cfg.txCount.toNat ∧ 1 < (afterDim 2#8).cfg.txCount.toNat ∧
    (∀ j < (72 : Fin 73).val, (entry (answering 1 1 (afterDim 2#8)) j).isSome = true) ∧
    (answering 0 0 (afterDim 2#8)).lockAnswers = some 0 ∧ enough 0 (answering 0 0 (afterDim 2#8)).yieldAnswers = true ∧
    (answering 1 1 (afterDim 2#8)).lockAnswers = some 1 ∧ enough 1 (answering 1 1 (afterDim 2#8)).yieldAnswers = true := by
  decide +kernel
/-- The first yield, and the last one, is withheld. -/
theorem wit_TransmitStandsAtTheWithheldRequest_yield :
    0 < (afterDim 2#8).cfg.txCount.toNat ∧ 1 < (afterDim 2#8).cfg.txCount.toNat ∧
    (∀ j < (72 : Fin 73).val, (entry (answering 2 1 (afterDim 2#8)) j).isSome = true) ∧
    (answering 1 0 (afterDim 2#8)).yieldAnswers = some 0 ∧ enough (0 + 1) (answering 1 0 (afterDim 2#8)).lockAnswers = true ∧
    (answering 2 1 (afterDim 2#8)).yieldAnswers = some 1 ∧ enough (1 + 1) (answering 2 1 (afterDim 2#8)).lockAnswers = true := by
  decide +kernel
theorem wit_NoGrantNoPinEvent : (noAnswer (afterDim 1#8)).lockAnswers = some 0 ∧ (noAnswer (afterDim 1#8)).cfg.txCount ≠ 0#8 := by
  decide
theorem wit_StepTableRefinesTransmit : (sending dimBuffer 72#7 0#8 .lockReq 0#7).st = .transmitting ∧
    (sending dimBuffer 72#7 0#8 .lockReq 0#7).seq = Seq.start ∧
    (sending dimBuffer 72#7 0#8 .lockReq 0#7).plen.toNat = (72 : Fin 73).val ∧
    (sending dimBuffer 72#7 0#8 .lockReq 0#7).cfg.txCount ≠ 0#8 := by decide +kernel
theorem wit_CommandRunsToItsEnd : CoreInv (presentedAtReset 0x05FFFF) ∧ (presentedAtReset 0x05FFFF).st = .idle ∧
    (presentedAtReset 0x05FFFF).moves = [.command 0x05FFFF#24] ∧ opField 0x05FFFF#24 < 6#8 ∧
    enough (presentedAtReset 0x05FFFF).cfg.txCount.toNat (presentedAtReset 0x05FFFF).lockAnswers = true ∧
    enough (presentedAtReset 0x05FFFF).cfg.txCount.toNat (presentedAtReset 0x05FFFF).yieldAnswers = true :=
  ⟨by refine ⟨?_, ?_, ?_, ?_, ?_, ?_, ?_, ?_⟩ <;> decide +kernel, by decide +kernel⟩
theorem wit_LockNeverGrantedIsStuck : (noAnswer (sending offBuffer 64#7 1#8 .lockReq 0#7)).st = .transmitting ∧
    (noAnswer (sending offBuffer 64#7 1#8 .lockReq 0#7)).seq.phase = .lockReq ∧
    (noAnswer (sending offBuffer 64#7 1#8 .lockReq 0#7)).lockAnswers = some 0 := by decide +kernel
theorem wit_YieldNeverReturnsIsStuck : (noAnswer (sending offBuffer 64#7 1#8 .yield 64#7)).st = .transmitting ∧
    (noAnswer (sending offBuffer 64#7 1#8 .yield 64#7)).seq.phase = .yield ∧
    (noAnswer (sending offBuffer 64#7 1#8 .yield 64#7)).yieldAnswers = some 0 := by decide +kernel
theorem wit_TransmissionKeepsTheBuffer : (sending offBuffer 64#7 0#8 .pulseLo 0#7).st = .transmitting ∧
    ∃ t, step (sending offBuffer 64#7 0#8 .pulseLo 0#7) = .next t := ⟨rfl, continues_next (by decide +kernel)⟩

theorem wit_LockGapAndYieldRows_lock : (sending offBuffer 64#7 0#8 .lockReq 0#7).st = .transmitting ∧
    (sending offBuffer 64#7 0#8 .lockReq 0#7).seq.phase = .lockReq ∧
    enough 1 (sending offBuffer 64#7 0#8 .lockReq 0#7).lockAnswers = true := by decide +kernel
theorem wit_LockGapAndYieldRows_unlock : (sending offBuffer 64#7 0#8 .unlock 64#7).st = .transmitting ∧
    (sending offBuffer 64#7 0#8 .unlock 64#7).seq.phase = .unlock := by decide +kernel
theorem wit_LockGapAndYieldRows_gap : (sending offBuffer 64#7 0#8 .gap 64#7).st = .transmitting ∧
    (sending offBuffer 64#7 0#8 .gap 64#7).seq.phase = .gap ∧ (sending offBuffer 64#7 0#8 .gap 64#7).lock = .unlocked := by
  decide +kernel
theorem wit_LockGapAndYieldRows_yield : (sending offBuffer 64#7 1#8 .yield 64#7).st = .transmitting ∧
    (sending offBuffer 64#7 1#8 .yield 64#7).seq.phase = .yield ∧ enough 1 (sending offBuffer 64#7 1#8 .yield 64#7).yieldAnswers = true ∧
    (sending offBuffer 64#7 1#8 .yield 64#7).seq.rep + 1#8 = (sending offBuffer 64#7 1#8 .yield 64#7).cfg.txCount ∧
    (sending offBuffer 64#7 0#8 .yield 64#7).seq.rep + 1#8 ≠ (sending offBuffer 64#7 0#8 .yield 64#7).cfg.txCount := by
  decide +kernel

/-- Each of the eight clauses, by its phase. -/
theorem wit_LockedRows : ∀ phase ∈ [Phase.ledOn, .preHi, .preLo, .pulseHi, .pulseLo, .postHi, .postLo, .ledOff],
    (sending dimBuffer 72#7 0#8 phase 71#7).st = .transmitting ∧ (sending dimBuffer 72#7 0#8 phase 71#7).lock = .locked ∧
    (sending dimBuffer 72#7 0#8 phase 71#7).seq.phase = phase := by decide +kernel
theorem wit_LockedRows_pulse : entry (sending dimBuffer 72#7 0#8 .pulseLo 71#7)
    (sending dimBuffer 72#7 0#8 .pulseLo 71#7).seq.pidx.toNat = some 1240#16 := by decide +kernel

/-- The bits of the frames of OFF 5 and DIM 3, 50; offset 27 of the second holds the selector. -/
def offBits (i : Nat) : Bool := decide ((ctrlDigits ++ [0,0,0,1,0,1])[i]? = some 1)
def dimBits (i : Nat) : Bool := decide ((ctrlDigits ++ [0,0,0,0,1,1,1,0,0,0])[i]? = some 1)

theorem wit_LockedWindowIsExact_off : (sending offBuffer 64#7 0#8 .ledOn 0#7).st = .transmitting ∧
    (sending offBuffer 64#7 0#8 .ledOn 0#7).lock = .locked ∧ (sending offBuffer 64#7 0#8 .ledOn 0#7).seq.phase = .ledOn ∧
    (sending offBuffer 64#7 0#8 .ledOn 0#7).plen = 64#7 ∧
    HoldsFrame (sending offBuffer 64#7 0#8 .ledOn 0#7) (fun i => .bit (offBits i)) 32 := by decide +kernel
theorem wit_LockedWindowIsExact_dim : (sending dimBuffer 72#7 0#8 .ledOn 0#7).st = .transmitting ∧
    (sending dimBuffer 72#7 0#8 .ledOn 0#7).lock = .locked ∧ (sending dimBuffer 72#7 0#8 .ledOn 0#7).seq.phase = .ledOn ∧
    (sending dimBuffer 72#7 0#8 .ledOn 0#7).plen = 72#7 ∧
    HoldsFrame (sending dimBuffer 72#7 0#8 .ledOn 0#7) (fun i => if i = 27 then .dimSel else .bit (dimBits i)) 36 := by
  decide +kernel
theorem wit_TransmissionDurations_off :
    enough (sending offBuffer 64#7 0#8 .lockReq 0#7).cfg.txCount.toNat (sending offBuffer 64#7 0#8 .lockReq 0#7).lockAnswers = true ∧
    enough (sending offBuffer 64#7 0#8 .lockReq 0#7).cfg.txCount.toNat (sending offBuffer 64#7 0#8 .lockReq 0#7).yieldAnswers = true ∧
    HoldsFrame (sending offBuffer 64#7 0#8 .lockReq 0#7) (fun i => .bit (offBits i)) 32 := by decide +kernel
theorem wit_TransmissionDurations_dim :
    enough (afterDim 1#8).cfg.txCount.toNat (answering 1 1 (afterDim 1#8)).lockAnswers = true ∧
    enough (afterDim 1#8).cfg.txCount.toNat (answering 1 1 (afterDim 1#8)).yieldAnswers = true ∧
    HoldsFrame (answering 1 1 (afterDim 1#8)) (fun i => if i = 27 then .dimSel else .bit (dimBits i)) 36 := by decide +kernel
/-- Both lengths of a repetition: the indicator disabled and enabled. -/
theorem wit_RepetitionEventCount : indicatorEnabled State.reset = false ∧ enough 1 State.reset.lockAnswers = true ∧
    enough 1 State.reset.yieldAnswers = true ∧ (∀ j < (0 : Fin 73).val, (entry State.reset j).isSome = true) ∧
    indicatorEnabled (sending dimBuffer 72#7 0#8 .lockReq 0#7) = true ∧
    enough 1 (sending dimBuffer 72#7 0#8 .lockReq 0#7).lockAnswers = true ∧
    enough 1 (sending dimBuffer 72#7 0#8 .lockReq 0#7).yieldAnswers = true ∧
    (∀ j < (72 : Fin 73).val, (entry (sending dimBuffer 72#7 0#8 .lockReq 0#7) j).isSome = true) := by decide +kernel
theorem wit_OutputsFollowTheirPins : CoreInv State.reset ∧ State.reset.cfg.ledPin = 0#8 ∧ (255#8 : Byte) ≠ State.reset.cfg.txPin ∧
    (255#8 : Byte) ≠ State.reset.cfg.ledPin :=
  ⟨by refine ⟨?_, ?_, ?_, ?_, ?_, ?_, ?_, ?_⟩ <;> decide +kernel, by decide +kernel⟩
theorem wit_OutputsFollowTheirPins_indicator : CoreInv (sending offBuffer 64#7 0#8 .preHi 0#7) ∧
    (sending offBuffer 64#7 0#8 .preHi 0#7).cfg.ledPin ≠ 0#8 :=
  ⟨by refine ⟨?_, ?_, ?_, ?_, ?_, ?_, ?_, ?_⟩ <;> decide +kernel, by decide +kernel⟩

/-- Output 0 of a core whose indicator is disabled and whose output pin is 7 falls under the last clause. -/
theorem wit_OutputsFollowTheirPins_zero : CoreInv { State.reset with cfg := { State.reset.cfg with txPin := 7#8 } } ∧
    ((0#8 : Byte) ≠ 7#8 ∧ (State.reset.cfg.ledPin = 0#8 ∨ (0#8 : Byte) ≠ State.reset.cfg.ledPin)) :=
  ⟨by refine ⟨?_, ?_, ?_, ?_, ?_, ?_, ?_, ?_⟩ <;> decide +kernel, by decide⟩
theorem wit_OutputsFollowTheirPins_other : (255#8 : Byte) ≠ (sending offBuffer 64#7 0#8 .preHi 0#7).cfg.txPin ∧
    ((sending offBuffer 64#7 0#8 .preHi 0#7).cfg.ledPin = 0#8 ∨ (255#8 : Byte) ≠ (sending offBuffer 64#7 0#8 .preHi 0#7).cfg.ledPin) := by
  decide +kernel

end Sys2Proof.Tests.Slice0
end

section
/-! The configuration, which no operation but CONSTRUCT writes (rule R30). -/

namespace Sys2Proof.Machine

open Sys2Proof

/-! ## Commands -/

@[simp] theorem encodeOff_cfg (s : State) : (encodeOff s).cfg = s.cfg := by simp [encodeOff]

@[simp] theorem encodeOn_cfg (s : State) : (encodeOn s).cfg = s.cfg := by simp [encodeOn]

@[simp] theorem encodeGroupOff_cfg (s : State) : (encodeGroupOff s).cfg = s.cfg := by simp [encodeGroupOff]

@[simp] theorem encodeGroupOn_cfg (s : State) : (encodeGroupOn s).cfg = s.cfg := by simp [encodeGroupOn]

@[simp] theorem encodeDim_cfg (s : State) : (encodeDim s).cfg = s.cfg := by simp [encodeDim]

@[simp] theorem encodeSwitch_cfg (s : State) : (encodeSwitch s).cfg = s.cfg := by
  unfold encodeSwitch
  split
  · exact encodeOff_cfg s
  · split
    · exact encodeOn_cfg s
    · exact encodeDim_cfg s

/-- A command whose encoding keeps the configuration keeps it, accepted or not. -/
theorem runCommand_cfg {encoding : State → State} (henc : ∀ a, (encoding a).cfg = a.cfg) (op dev val : Byte)
    (s : State) : (runCommand op dev val encoding s).cfg = s.cfg := by
  by_cases hs : s.st = .idle
  · simp [runCommand, hs, henc]
  · rw [runCommand_busy hs]

/-- The illegal command word sets the sticky flag or, on a busy core, does nothing (rules R235, R238). -/
theorem execIllegal_cases (op dev val : Byte) {s t : State} (h : execIllegal op dev val s = .next t) :
    t = raiseIllegal s ∨ t = s := by
  cases hs : s.st <;> simp only [execIllegal, hs, Host.Outcome.next.injEq] at h
  case idle => exact .inl h.symm
  case encoding => exact .inr h.symm
  case transmitting => exact .inr h.symm

/-! ## The transmitter -/

theorem enter_cfg {s t : State} (h : enter s = some t) : t.cfg = s.cfg := by
  obtain ⟨-, ht⟩ := Option.ite_none_right_eq_some.1 h
  exact Option.some.inj ht ▸ granted_cfg s

theorem yieldTurn_cfg {s t : State} (h : yieldTurn s = some t) : t.cfg = s.cfg := by
  obtain ⟨-, ht⟩ := Option.ite_none_right_eq_some.1 h
  exact Option.some.inj ht ▸ yielded_cfg s

/-- A data pulse that completes has read its low period (rule R191). -/
theorem dataPulse_ok {j : Nat} {s t : State} (h : dataPulse j s = .ok t) :
    ∃ d, pbRead j s = .ok d ∧ t = pulseLow d (pulseHigh s) := by
  unfold dataPulse at h
  split at h
  next d hd => exact ⟨d, hd, (Except.ok.inj h).symm⟩
  next => cases h

theorem dataPulse_cfg {j : Nat} {s t : State} (h : dataPulse j s = .ok t) : t.cfg = s.cfg := by
  obtain ⟨d, -, rfl⟩ := dataPulse_ok h
  simp

theorem dataPulses_cfg {n j : Nat} {s t : State} (h : dataPulses n j s = .ok t) : t.cfg = s.cfg := by
  induction n generalizing j s with
  | zero => cases h; rfl
  | succ n ih =>
    unfold dataPulses at h
    split at h
    next u hu => exact (ih h).trans (dataPulse_cfg hu)
    next => cases h

@[simp] theorem closeRepetition_cfg (s : State) : (closeRepetition s).cfg = s.cfg := by simp [closeRepetition]

/-- The state in which a transmission stands, at its end or at a request without an answer. -/
def Progress.reached : Progress → State
  | .done t => t
  | .waiting t => t

/-- What a repetition without a fault does: it waits for the lock, or it drives its pulses and then waits for its yield
or is done (rule R192). -/
theorem repetitionRun_cases {p : Nat} {s : State} {r : Progress} (h : repetitionRun p s = .ok r) :
    (enter s = none ∧ r = .waiting (setSeq s.seq.rep .lockReq 0#7 s)) ∨
    ∃ t u v, enter s = some t ∧ dataPulses p 0 (latchPulse (indicator true t)) = .ok u ∧
      v = closeRepetition (latchPulse u) ∧
      ((yieldTurn v = none ∧ r = .waiting (setSeq v.seq.rep .yield (BitVec.ofNat 7 p) v)) ∨
        ∃ w, yieldTurn v = some w ∧ r = .done (setSeq w.seq.rep .lockReq 0#7 w)) := by
  unfold repetitionRun at h
  split at h
  next he => exact .inl ⟨he, (Except.ok.inj h).symm⟩
  next t he =>
    split at h
    next => cases h
    next u hu =>
      refine .inr ⟨t, u, _, he, hu, rfl, ?_⟩
      dsimp only at h
      split at h
      next hy => exact .inl ⟨hy, (Except.ok.inj h).symm⟩
      next w hy => exact .inr ⟨w, hy, (Except.ok.inj h).symm⟩

theorem repetitionRun_cfg {p : Nat} {s : State} {r : Progress} (h : repetitionRun p s = .ok r) :
    r.reached.cfg = s.cfg := by
  obtain ⟨-, rfl⟩ | ⟨t, u, v, ht, hu, rfl, hv⟩ := repetitionRun_cases h
  · rfl
  · have hclosed : (closeRepetition (latchPulse u)).cfg = s.cfg := by
      simp [dataPulses_cfg hu, enter_cfg ht]
    obtain ⟨-, rfl⟩ | ⟨w, hw, rfl⟩ := hv
    · exact hclosed
    · exact (yieldTurn_cfg hw).trans hclosed

theorem repetitions_cfg {p n : Nat} {s : State} {r : Progress} (h : repetitions p n s = .ok r) :
    r.reached.cfg = s.cfg := by
  induction n generalizing s with
  | zero => cases h; rfl
  | succ n ih =>
    unfold repetitions at h
    split at h
    next => cases h
    next t ht => cases h; exact repetitionRun_cfg ht
    next t ht => exact (ih h).trans (repetitionRun_cfg ht)

theorem transmitRun_cfg {p : Nat} {s : State} {r : Progress} (h : transmitRun p s = .ok r) :
    r.reached.cfg = s.cfg := by
  unfold transmitRun at h
  split at h
  next => cases h
  next t ht =>
    have htrans : t.cfg = s.cfg := repetitions_cfg ht
    cases h
    exact htrans
  next t ht =>
    have htrans : t.cfg = s.cfg := repetitions_cfg ht
    cases h
    exact htrans

/-! ## Outcomes -/

theorem next_cfg {a s t : State} (h : (.next a : Host.Outcome State Fault Refusal) = .next t) (ha : a.cfg = s.cfg) :
    t.cfg = s.cfg := Host.Outcome.next.inj h ▸ ha

theorem settle_eq_next {r : Except Fault State} {t : State} (h : settle r = .next t) : r = .ok t := by
  cases r with
  | ok u => exact congrArg _ (Host.Outcome.next.inj h)
  | error f => cases h

theorem settleProgress_eq_next {r : Except Fault Progress} {t : State} (h : settleProgress r = .next t) :
    ∃ p, r = .ok p ∧ p.reached = t := by
  match r, h with
  | .ok (.done u), h => exact ⟨_, rfl, Host.Outcome.next.inj h⟩
  | .ok (.waiting u), h => exact ⟨_, rfl, Host.Outcome.next.inj h⟩

/-- Settles O10, an arm of `exec` at a time: the commands by their encodings, the writes into the buffer and the pulses
by what their operations leave unchanged, the transmissions by induction on their repetitions and pulses. -/
theorem onlyConstructWritesTheConfiguration : Obligations.OnlyConstructWritesTheConfiguration := by
  intro i s t hi h
  cases i with
  | deviceOff dev val => exact next_cfg h (runCommand_cfg encodeOff_cfg _ _ _ s)
  | deviceOn dev val => exact next_cfg h (runCommand_cfg encodeOn_cfg _ _ _ s)
  | groupOff dev val => exact next_cfg h (runCommand_cfg encodeGroupOff_cfg _ _ _ s)
  | groupOn dev val => exact next_cfg h (runCommand_cfg encodeGroupOn_cfg _ _ _ s)
  | dim dev level => exact next_cfg h (runCommand_cfg encodeDim_cfg _ _ _ s)
  | switch dev value => exact next_cfg h (runCommand_cfg encodeSwitch_cfg _ _ _ s)
  | illegal op dev val =>
    obtain rfl | rfl := execIllegal_cases op dev val h
    · exact raiseIllegal_cfg s
    · rfl
  | bitconv v width => exact next_cfg h rfl
  | rescale level => exact next_cfg h rfl
  | setbit offset value => exact next_cfg h (setBit_cfg s _ _)
  | setdimsel => exact next_cfg h (setDimSel_cfg s)
  | setctrl => exact next_cfg h (setCtrl_cfg s)
  | setdev address => exact next_cfg h (setDev_cfg s address)
  | setdim level4 => exact next_cfg h (setDim_cfg s level4)
  | latch => exact next_cfg h (latchPulse_cfg s)
  | pulse j => exact dataPulse_cfg (settle_eq_next h)
  | repetition p =>
    obtain ⟨r, hr, rfl⟩ := settleProgress_eq_next h
    exact repetitionRun_cfg hr
  | transmit p =>
    obtain ⟨r, hr, rfl⟩ := settleProgress_eq_next h
    exact transmitRun_cfg hr
  | construct txPin controllerId txCount ledPin => exact absurd rfl (hi txPin controllerId txCount ledPin)

end Sys2Proof.Machine
end

section
/-! The illegal command word (rules R101 and R235). -/

namespace Sys2Proof.Machine

open Sys2Proof

/-- An IDLE core accepts the illegal command word by raising IllegalCommand (rule R235). -/
theorem execIllegal_idle (op dev val : Byte) {s : State} (hs : s.st = .idle) :
    execIllegal op dev val s = .next (raiseIllegal s) := by
  simp only [execIllegal, hs]

/-- Settles O17: no opcode of `0x06` or greater is a command's, so the word decodes to the illegal command word, and
the arm of an IDLE core raises the flag. -/
theorem illegalWordSetsTheFlagOnly : Obligations.IllegalWordSetsTheFlagOnly := by
  intro s op dev val hs hop
  constructor
  · exact decode_illegal op dev val hop
  · exact execIllegal_idle op dev val hs

end Sys2Proof.Machine
end

section
/-! BITCONV and BITVAL are inverse up to truncation (rule R132). -/

namespace Sys2Proof.Machine

open Sys2Proof

/-- BITCONV of `W + 1` bits takes a number apart into its upper `W` bits and the low one (rule R130). -/
theorem bitconv_two_mul_add_bit (v width : Nat) (b : Bool) :
    bitconv (2 * v + b.toNat) (width + 1) = bitconv v width ++ [b] := by
  have hhigh : (2 * v + b.toNat) / 2 = v := by have := b.toNat_lt; omega
  have hlow : (2 * v + b.toNat).testBit 0 = b := by cases b <;> simp
  rw [bitconv_succ, hhigh, hlow]

/-- BITCONV of BITVAL, at the list's length, is the list (rule R132): the list grows at its low end, as BITVAL reads it. -/
theorem bitconv_bitval (bs : List Bool) : bitconv (bitval bs) bs.length = bs := by
  induction bs using List.reverseRecOn with
  | nil => rfl
  | append_singleton bs b ih =>
    rw [bitval_append_bit, List.length_append, List.length_singleton, bitconv_two_mul_add_bit, ih]

/-- Settles O29: a value that fits its width is its own truncation. -/
theorem bitvalInvertsBitconv : Obligations.BitvalInvertsBitconv := by
  refine ⟨fun width v hv => ?_, bitval_bitconv_mod, bitconv_bitval⟩
  rw [bitval_bitconv_mod, Nat.mod_eq_of_lt hv]

end Sys2Proof.Machine
end

section
/-! FrameEncoder's writes into the pulse buffer, run as instructions of their own (rules R140 to R144, R147). -/

namespace Sys2Proof.Machine

/-! ## The two entries of a pair -/

theorem bitPair_fst (v : Bool) : (bitPair v).1 = if v then 1240#16 else 280#16 := by cases v <;> rfl

theorem bitPair_snd (v : Bool) : (bitPair v).2 = if v then 280#16 else 1240#16 := by cases v <;> rfl

/-- What SETBIT's symbol says of its two entries (rules R92, R140). -/
theorem entries_setBit (offset : Nat) (v : Bool) (s : State) (h : offset < 36) :
    entry (setBit offset v s) (2 * offset) = some (bitPair v).1 ∧
      entry (setBit offset v s) (2 * offset + 1) = some (bitPair v).2 :=
  (pairSym_eq_bit _ _ v).1 ((symAt_setBit offset offset v s h).trans (if_pos rfl))

/-- Settles O31: offset `offset` reads as the bit, which says its two entries, and no other entry is written. -/
theorem setbitWritesOnePair : Obligations.SetbitWritesOnePair := by
  intro s offset value
  obtain ⟨hfirst, hsecond⟩ := entries_setBit offset.val value s offset.isLt
  rw [bitPair_fst] at hfirst
  rw [bitPair_snd] at hsecond
  refine ⟨rfl, _, rfl, sameButBuffer_setBit s offset value, hfirst, hsecond, ?_⟩
  intro j hj0 hj1
  exact entry_setBit offset.val value s j offset.isLt hj0 hj1

/-- What SETDIMSEL's symbol says of its two entries (rules R94, R141). -/
theorem entries_setDimSel (s : State) :
    entry (setDimSel s) 54 = some 280#16 ∧ entry (setDimSel s) 55 = some 280#16 :=
  (pairSym_eq_dimSel _ _).1 (symAt_setDimSel 27 s)

/-- Settles O32: offset 27 reads as the dim selector, which says its two entries, and no other entry is written. -/
theorem setdimselWritesTheSelector : Obligations.SetdimselWritesTheSelector := by
  intro s
  obtain ⟨hfirst, hsecond⟩ := entries_setDimSel s
  exact ⟨rfl, _, rfl, sameButBuffer_setDimSel s, hfirst, hsecond, symAt_setDimSel 27 s, entry_setDimSel s⟩

/-! ## The fields -/

/-- The symbols of SETCTRL's field are BITCONV of the controller identity (rule R142). -/
theorem setCtrl_symbols (s : State) :
    (List.range 26).map (symAt (setCtrl s)) = (bitconv s.cfg.cid.toNat 26).map (fun b => some (.bit b)) := by
  rw [bitconv, List.map_map]
  refine List.map_congr_left fun k hk => ?_
  exact (symAt_setCtrl s k).trans (if_pos (List.mem_range.1 hk))

/-- BITVAL of BITCONV of an identity is the identity, which fits its width (rules R132, R147). -/
theorem bitval_bitconv_identity (cid : Identity) : bitval (bitconv cid.toNat 26) = cid.toNat := by
  rw [bitval_bitconv_mod, Nat.mod_eq_of_lt cid.isLt]

/-- Settles O33: the field holds the identity's bits, and they are BITCONV's list, which BITVAL inverts. -/
theorem setctrlFieldReadsBack : Obligations.SetctrlFieldReadsBack := by
  intro s
  refine ⟨rfl, _, rfl, setCtrl_eq s, ?_, entry_setCtrl s, _, setCtrl_symbols s, bitval_bitconv_identity s.cfg.cid⟩
  intro k hk
  have hmsb : s.cfg.cid.getMsbD k = s.cfg.cid.toNat.testBit (25 - k) := by
    simp [BitVec.getMsbD, hk, BitVec.getLsbD]
  rw [symAt_setCtrl, if_pos hk, hmsb]

/-- The four bits of a nibble field are those of the operand modulo 16 (rules R143, R144). -/
theorem testBit_mod_sixteen (v k : Nat) : (v % 16).testBit (3 - k) = v.testBit (3 - k) := by
  rw [show 16 = 2 ^ 4 from rfl, Nat.testBit_mod_two_pow, decide_eq_true (by omega : 3 - k < 4), Bool.true_and]

/-- Settles O34: SETDEV's field holds the low bits of the address, and `entry_setDev` says what it leaves. -/
theorem setdevWritesTheDeviceField : Obligations.SetdevWritesTheDeviceField := by
  intro s address
  refine ⟨rfl, _, rfl, setDev_eq s address, ?_, entry_setDev address s⟩
  intro k hk
  rw [symAt_setDev, if_pos (by omega), testBit_mod_sixteen, show 31 - (28 + k) = 3 - k by omega]

/-- Settles O35: SETDIM's field holds the low bits of the level, and `entry_setDim` says what it leaves. -/
theorem setdimWritesTheDimField : Obligations.SetdimWritesTheDimField := by
  intro s level4
  refine ⟨rfl, _, rfl, setDim_eq s level4, ?_, entry_setDim level4 s⟩
  intro k hk
  rw [symAt_setDim, if_pos (by omega), testBit_mod_sixteen, show 35 - (32 + k) = 3 - k by omega]

end Sys2Proof.Machine
end

section
/-! The commands beside one another: SWITCH and the command its value selects (rule R167), OFF and ON (rule R171). -/

namespace Sys2Proof.Machine

open Sys2Proof

/-! ## SWITCH -/

/-- Opcode `0x05` is SWITCH's (rule R99). -/
theorem decode_cmdWord_switch (dev value : Byte) : decode (cmdWord 0x05#8 dev value) = .switch dev value := by
  simp only [decode, opField_cmdWord, devField_cmdWord, valField_cmdWord, BitVec.reduceEq, if_true, if_false]

/-- Settles O23, by the cases of the value: `encodeSwitch_op` says which command's encoding SWITCH runs in each. -/
theorem switchDispatchesOnItsValue : Obligations.SwitchDispatchesOnItsValue := by
  intro s dev value hs
  have hswitch : exec (.switch dev value) s = .next (encodeSwitch (acceptCommand 0x05#8 dev value s)) :=
    execSwitch_idle hs dev value
  refine ⟨decode_cmdWord_switch dev value, ?_⟩
  rw [hswitch, encodeSwitch_op]
  by_cases hoff : value = 0#8
  · rw [if_pos hoff, if_pos hoff]
    exact ⟨_, execOff_idle hs dev value, rfl⟩
  rw [if_neg hoff, if_neg hoff]
  by_cases hon : value = s.params.valueMax
  · rw [if_pos hon, if_pos hon]
    exact ⟨_, execOn_idle hs dev value, rfl⟩
  · rw [if_neg hon, if_neg hon]
    exact ⟨_, execDim_idle hs dev value, rfl⟩

/-! ## OFF and ON -/

/-- Two buffers that hold one symbol at an offset hold the same two entries there. -/
theorem entry_eq_of_symAt {s t : State} {y : Sym} (j : Nat) (hs : symAt s (j / 2) = some y)
    (ht : symAt t (j / 2) = some y) : entry s j = entry t j := by
  obtain ⟨heven, hodd⟩ := pairSym_inj hs ht
  obtain hj | hj : j = 2 * (j / 2) ∨ j = 2 * (j / 2) + 1 := by omega
  · rw [hj]; exact heven
  · rw [hj]; exact hodd

/-- The command symbol stands at offset 27 alone (rule R110). -/
theorem frameSym_of_ne_commandFlag (cid : Identity) (g : Bool) (c c' : Sym) (device level : Nat) {i : Nat}
    (hi : i ≠ 27) : frameSym cid g c device level i = frameSym cid g c' device level i := by
  simp only [frameSym, if_neg hi]

/-- The two entries of the command flag in a buffer that holds a frame of 32 symbols (rules R92, R110). -/
theorem commandFlag_entries {t : State} {cid : Identity} {g c : Bool} {device level : Nat}
    (ht : HoldsFrame t (frameSym cid g (.bit c) device level) 32) :
    entry t 54 = some (bitPair c).1 ∧ entry t 55 = some (bitPair c).2 :=
  (pairSym_eq_bit _ _ c).1 (ht 27 (by decide))

/-- Two buffers whose frames differ in the command flag differ in its two entries alone (rule R171). -/
theorem entries_differ_in_commandFlag {t u : State} {cid : Identity} {g : Bool} {device level : Nat}
    (ht : HoldsFrame t (frameSym cid g (.bit false) device level) 32)
    (hu : HoldsFrame u (frameSym cid g (.bit true) device level) 32) :
    (∀ j < 64, j ≠ 54 → j ≠ 55 → entry t j = entry u j) ∧
      entry t 54 = some 280#16 ∧ entry t 55 = some 1240#16 ∧
      entry u 54 = some 1240#16 ∧ entry u 55 = some 280#16 := by
  obtain ⟨ht54, ht55⟩ := commandFlag_entries ht
  obtain ⟨hu54, hu55⟩ := commandFlag_entries hu
  refine ⟨fun j hj h54 h55 => ?_, ht54, ht55, hu54, hu55⟩
  have hother : j / 2 ≠ 27 := by omega
  have hsym := ht (j / 2) (by omega)
  rw [frameSym_of_ne_commandFlag cid g _ (.bit true) device level hother] at hsym
  exact entry_eq_of_symAt j hsym (hu (j / 2) (by omega))

/-- Settles O26: `plainEncoding_spec` gives the four frames, which differ in the command flag two by two. -/
theorem offAndOnDifferInTheCommandFlag : Obligations.OffAndOnDifferInTheCommandFlag := by
  intro s d v hs
  constructor
  · obtain ⟨-, hoff, -⟩ := plainEncoding_spec (s := s) (op := 0x00#8) (dev := d) (val := v) rfl false false d
    obtain ⟨-, hon, -⟩ := plainEncoding_spec (s := s) (op := 0x01#8) (dev := d) (val := v) rfl false true d
    exact ⟨_, _, execOff_idle hs d v, execOn_idle hs d v, entries_differ_in_commandFlag hoff hon⟩
  · obtain ⟨-, hoff, -⟩ := plainEncoding_spec (s := s) (op := 0x02#8) (dev := d) (val := v) rfl true false 0#8
    obtain ⟨-, hon, -⟩ := plainEncoding_spec (s := s) (op := 0x03#8) (dev := d) (val := v) rfl true true 0#8
    exact ⟨_, _, execGroupOff_idle hs d v, execGroupOn_idle hs d v, entries_differ_in_commandFlag hoff hon⟩

end Sys2Proof.Machine
end

section
/-! The transmitter's two pulses, run as instructions of their own (rules R190, R191), and the command that sends nothing
(rule R202). -/

namespace Sys2Proof.Machine

open Sys2Proof

/-! ## LATCH and PULSE -/

/-- `Drove` says what state a pulse leaves, but for the clock and the draws, and how long it takes (rules R197, R198). -/
theorem Drove.elapsed {s t : State} {es : List Event} (h : Drove s t es) :
    ∃ now draws, t = { s with tx := false, now := now, draws := draws, wave := s.wave ++ es } ∧
      Elapsed (decide (s.lock = .locked)) s { s with now := now } (waitSum es) := by
  obtain ⟨hstate, hleast, hexact⟩ := h
  exact ⟨t.now, t.draws, hstate, hleast, fun hlock => hexact (of_decide_eq_true hlock)⟩

theorem waitSum_latchTrace : waitSum latchTrace = 2955 := rfl

theorem waitSum_pulseTrace (d : Micros) : waitSum (pulseTrace d) = 270 + d.toNat := rfl

/-- Settles O37: `latchPulse_drove` gives the trace, whose waits sum to 2955. -/
theorem latchDrivesItsPair : Obligations.LatchDrivesItsPair := by
  intro s
  obtain ⟨now, draws, hstate, helapsed⟩ := (latchPulse_drove s).elapsed
  rw [waitSum_latchTrace] at helapsed
  exact ⟨rfl, now, draws, congrArg Host.Outcome.next hstate, helapsed⟩

/-- Settles O38, by what the entry holds: `dataPulse_drove` where it is written, and a failed read where it is not. -/
theorem pulseDrivesItsEntry : Obligations.PulseDrivesItsEntry := by
  intro s j
  refine ⟨rfl, fun d hd => ?_, fun hunwritten => ?_⟩
  · obtain ⟨t, hrun, hdrove⟩ := dataPulse_drove hd
    obtain ⟨now, draws, hstate, helapsed⟩ := hdrove.elapsed
    rw [waitSum_pulseTrace] at helapsed
    exact ⟨now, draws, (congrArg settle hrun).trans (congrArg Host.Outcome.next hstate), helapsed⟩
  · have hrun : dataPulse j.val s = .error .unwrittenRead := by
      rw [dataPulse, pbRead_unwritten j.isLt hunwritten]
    exact congrArg settle hrun

/-! ## A repetition count of 0 -/

/-- A command's buffer depends on the buffer before it, the word, the controller identity and the parameters (rules R170,
R202): the frame gives the entries that are written, and the others are as before. -/
theorem exec_command_pb {s s' t t' : State} {w : CmdWord} (hs : s.st = .idle) (hs' : s'.st = .idle)
    (hop : opField w < 6#8) (hcid : s'.cfg.cid = s.cfg.cid) (hparams : s'.params = s.params) (hpb : s'.pb = s.pb)
    (ht : exec (decode w) s = .next t) (ht' : exec (decode w) s' = .next t') : t'.pb = t.pb := by
  obtain ⟨u, hu, -, -, hframe, hrest⟩ := exec_command hs hop
  obtain ⟨u', hu', -, -, hframe', hrest'⟩ := exec_command hs' hop
  obtain rfl : u = t := Host.Outcome.next.inj (hu.symm.trans ht)
  obtain rfl : u' = t' := Host.Outcome.next.inj (hu'.symm.trans ht')
  rw [hcid, hparams] at hframe' hrest'
  refine pb_ext fun j hj => ?_
  by_cases hwritten : j < 2 * (commandFrame w s.cfg.cid s.params).2
  · exact holdsFrame_entries hframe' hframe j hwritten
  · rw [hrest' j (by omega) hj, hrest j (by omega) hj, entry_congr hpb]

/-- A command leaves a `PLEN` of 64 or 72 and every entry below it written (rules R76, R109). -/
theorem exec_command_plen {s t : State} {w : CmdWord} (hs : s.st = .idle) (hop : opField w < 6#8)
    (ht : exec (decode w) s = .next t) :
    (t.plen = 64#7 ∨ t.plen = 72#7) ∧ ∀ j < t.plen.toNat, (entry t j).isSome = true := by
  obtain ⟨u, hu, hlen, ⟨-, hstate⟩, hframe, -⟩ := exec_command hs hop
  obtain rfl : u = t := Host.Outcome.next.inj (hu.symm.trans ht)
  have hplen : u.plen = BitVec.ofNat 7 (2 * (commandFrame w s.cfg.cid s.params).2) := congrArg State.plen hstate
  refine ⟨hlen.imp (fun h => by simp [hplen, h]) (fun h => by simp [hplen, h]), fun j hj => ?_⟩
  rw [hplen, BitVec.toNat_ofNat] at hj
  exact holdsFrame_written hframe j (by omega)

/-- At a count of 0 an accepted command leaves the core IDLE, and nothing of the transmission has changed (rule R202). -/
theorem AfterCommand.untransmitted {s t : State} {op dev val : Byte} {plen : PulseIndex}
    (h : AfterCommand s t op dev val plen) (hcount : s.cfg.txCount = 0#8) :
    t.st = .idle ∧ t.lock = s.lock ∧ t.tx = s.tx ∧ t.led = s.led ∧ t.wave = s.wave ∧ t.seq = s.seq := by
  obtain ⟨-, hstate⟩ := h
  rw [if_pos hcount, if_pos hcount] at hstate
  rw [hstate]
  exact ⟨rfl, rfl, rfl, rfl, rfl, rfl⟩

/-- Settles O27: at a count of 0 the core is IDLE again with its outputs, trace and sequencer as before, and the buffer,
by `exec_command_pb`, does not depend on the count. -/
theorem zeroCountSendsNothing : Obligations.ZeroCountSendsNothing := by
  intro s w hs hop hcount
  obtain ⟨t, ht, -, hafter, -, -⟩ := exec_command hs hop
  obtain ⟨hst, hlock, htx, hled, hwave, hseq⟩ := AfterCommand.untransmitted hafter hcount
  obtain ⟨hplen, hwritten⟩ := exec_command_plen hs hop ht
  refine ⟨t, ht, hst, hlock, htx, hled, hwave, hseq, hwritten, hplen, fun n => ?_⟩
  have hs' : { s with cfg := { s.cfg with txCount := n } }.st = .idle := hs
  obtain ⟨u, hu, -⟩ := exec_command hs' hop
  exact ⟨u, hu, exec_command_pb hs hs' hop rfl rfl rfl ht hu⟩

end Sys2Proof.Machine
end

section
/-! The command word, decoded and encoded (rules R98 to R101). -/

namespace Sys2Proof.Machine

open Sys2Proof

theorem decode_cmdWord_off (dev val : Byte) : decode (cmdWord 0x00#8 dev val) = .deviceOff dev val := by
  simp only [decode, opField_cmdWord, devField_cmdWord, valField_cmdWord, if_true]

theorem decode_cmdWord_on (dev val : Byte) : decode (cmdWord 0x01#8 dev val) = .deviceOn dev val := by
  simp only [decode, opField_cmdWord, devField_cmdWord, valField_cmdWord, BitVec.reduceEq, if_true, if_false]

theorem decode_cmdWord_groupOff (dev val : Byte) : decode (cmdWord 0x02#8 dev val) = .groupOff dev val := by
  simp only [decode, opField_cmdWord, devField_cmdWord, valField_cmdWord, BitVec.reduceEq, if_true, if_false]

theorem decode_cmdWord_groupOn (dev val : Byte) : decode (cmdWord 0x03#8 dev val) = .groupOn dev val := by
  simp only [decode, opField_cmdWord, devField_cmdWord, valField_cmdWord, BitVec.reduceEq, if_true, if_false]

theorem decode_cmdWord_dim (dev level : Byte) : decode (cmdWord 0x04#8 dev level) = .dim dev level := by
  simp only [decode, opField_cmdWord, devField_cmdWord, valField_cmdWord, BitVec.reduceEq, if_true, if_false]

/-- Settles O1, by the instruction: a command's word has the opcode that rule R99 assigns to it, an illegal word one of
`0x06` or greater, and an internal operation has no word. -/
theorem decodeInvertsEncode : Obligations.DecodeInvertsEncode := by
  intro i w hwf henc
  cases i with
  | deviceOff dev val => cases henc; exact decode_cmdWord_off dev val
  | deviceOn dev val => cases henc; exact decode_cmdWord_on dev val
  | groupOff dev val => cases henc; exact decode_cmdWord_groupOff dev val
  | groupOn dev val => cases henc; exact decode_cmdWord_groupOn dev val
  | dim dev level => cases henc; exact decode_cmdWord_dim dev level
  | switch dev value => cases henc; exact decode_cmdWord_switch dev value
  | illegal op dev val => cases henc; exact decode_illegal op dev val (of_decide_eq_true hwf)
  | bitconv | rescale | setbit | setdimsel | setctrl | setdev | setdim => cases henc
  | latch | pulse | repetition | transmit | construct => cases henc

/-- A word whose instruction encodes to the opcode and the operand fields of that word encodes to itself. -/
theorem encodes_back {w : CmdWord} {op : Byte} {i : Instr} (hop : opField w = op) (hdec : decode w = i)
    (hwf : i.wellFormed = true) (henc : encode i = some (cmdWord op (devField w) (valField w))) :
    (decode w).wellFormed = true ∧ encode (decode w) = some w := by
  subst hop hdec
  exact ⟨hwf, henc.trans (congrArg some (cmdWord_fields w))⟩

/-- Settles O2, by what a word can decode to: `cmdWord_fields` puts it together again from its fields. -/
theorem encodeInvertsDecode : Obligations.EncodeInvertsDecode := by
  intro w
  rcases decode_cases w with ⟨h, d⟩ | ⟨h, d⟩ | ⟨h, d⟩ | ⟨h, d⟩ | ⟨h, d⟩ | ⟨h, d⟩ | ⟨h, d⟩
  case inr.inr.inr.inr.inr.inr => exact encodes_back rfl d (decide_eq_true h) rfl
  all_goals exact encodes_back h d rfl rfl

/-- Settles O3: seven closed words, decoded. -/
theorem writtenWordsDecode : Obligations.WrittenWordsDecode := by
  unfold Obligations.WrittenWordsDecode
  decide

end Sys2Proof.Machine
end

section
/-! The step table, a row at a time (rule R199). -/

namespace Sys2Proof.Machine

open Sys2Proof

/-! ## What a row does, whatever the lock -/

theorem enter_cases {s t : State} (h : enter s = some t) : t = granted s := by
  obtain ⟨-, ht⟩ := Option.ite_none_right_eq_some.1 h
  exact (Option.some.inj ht).symm

theorem yieldTurn_cases {s t : State} (h : yieldTurn s = some t) : t = yielded s := by
  obtain ⟨-, ht⟩ := Option.ite_none_right_eq_some.1 h
  exact (Option.some.inj ht).symm

/-- What a row that completes can have done: nothing, where a request is not answered, or its action (rule R199). -/
theorem sequencerStep_cases {s t : State} (h : sequencerStep s = .next t) :
    t = s ∨ t = goPhase .ledOn (granted s) ∨
    (∃ b phase, t = goPhase phase (indicator b s)) ∨
    (∃ b d rep phase pidx, t = setSeq rep phase pidx (wait d (driveTx b s))) ∨
    t = goPhase .gap (leave s) ∨ t = goPhase .yield (wait tGap s) ∨ t = yieldStep (yielded s) := by
  cases hph : s.seq.phase <;> simp only [sequencerStep, hph] at h
  case lockReq =>
    cases he : enter s with
    | none => rw [he] at h; cases h; exact .inl rfl
    | some u => rw [he] at h; cases h; rw [enter_cases he]; exact .inr (.inl rfl)
  case ledOn => cases h; exact .inr (.inr (.inl ⟨_, _, rfl⟩))
  case preHi => cases h; exact .inr (.inr (.inr (.inl ⟨_, _, _, _, _, rfl⟩)))
  case preLo => cases h; exact .inr (.inr (.inr (.inl ⟨_, _, _, _, _, rfl⟩)))
  case pulseHi => cases h; exact .inr (.inr (.inr (.inl ⟨_, _, _, _, _, rfl⟩)))
  case pulseLo =>
    cases hr : pbRead s.seq.pidx.toNat s with
    | error f => rw [hr] at h; cases h
    | ok d => rw [hr] at h; cases h; exact .inr (.inr (.inr (.inl ⟨_, _, _, _, _, rfl⟩)))
  case postHi => cases h; exact .inr (.inr (.inr (.inl ⟨_, _, _, _, _, rfl⟩)))
  case postLo => cases h; exact .inr (.inr (.inr (.inl ⟨_, _, _, _, _, rfl⟩)))
  case ledOff => cases h; exact .inr (.inr (.inl ⟨_, _, rfl⟩))
  case unlock => cases h; exact .inr (.inr (.inr (.inr (.inl rfl))))
  case gap => cases h; exact .inr (.inr (.inr (.inr (.inr (.inl rfl)))))
  case yield =>
    cases hy : yieldTurn s with
    | none => rw [hy] at h; cases h; exact .inl rfl
    | some u => rw [hy] at h; cases h; rw [yieldTurn_cases hy]; exact .inr (.inr (.inr (.inr (.inr (.inr rfl)))))

/-- Settles O46: no action of a row touches the buffer, `PLEN`, the configuration, the latches or the flag. -/
theorem transmissionKeepsTheBuffer : Obligations.TransmissionKeepsTheBuffer := by
  intro s t hst h
  rw [step_transmitting hst] at h
  obtain rfl | rfl | ⟨b, phase, rfl⟩ | ⟨b, d, rep, phase, pidx, rfl⟩ | rfl | rfl | rfl := sequencerStep_cases h
  all_goals simp

/-! ## A request that is not answered -/

/-- LOCKREQ without a grant is a step to the same state (rule R249, code 2). -/
theorem step_lockReq_withheld {s : State} (hst : s.st = .transmitting) (hph : s.seq.phase = .lockReq)
    (he : enter s = none) : step s = .next s := by
  simp only [step_transmitting hst, sequencerStep, hph, he]

/-- YIELD that is not handed back is a step to the same state (rule R249, code 3). -/
theorem step_yield_withheld {s : State} (hst : s.st = .transmitting) (hph : s.seq.phase = .yield)
    (hy : yieldTurn s = none) : step s = .next s := by
  simp only [step_transmitting hst, sequencerStep, hph, hy]

/-- Settles O44: a step that leaves the state as it is, any number of times. -/
theorem lockNeverGrantedIsStuck : Obligations.LockNeverGrantedIsStuck :=
  fun _ k hst hph hnone => run_stuck (step_lockReq_withheld hst hph (enter_withheld hnone)) k

/-- Settles O45: a step that leaves the state as it is, any number of times. -/
theorem yieldNeverReturnsIsStuck : Obligations.YieldNeverReturnsIsStuck :=
  fun _ k hst hph hnone => run_stuck (step_yield_withheld hst hph (yieldTurn_withheld hnone)) k

/-! ## The rows, as states -/

/-- A drive and a wait in the Locked window (rules R40, R197). -/
theorem driveWait_locked {s : State} (h : s.lock = .locked) (b : Bool) (d : Delay) :
    wait d (driveTx b s) =
      { s with tx := b, wave := s.wave ++ [.tx b, .wait d], now := s.now + d.toNat } := by
  rw [wait_locked (s := driveTx b s) h]
  simp [driveTx, emit]

/-- The indicator's drive, when it is enabled (rules R29, R194). -/
theorem indicator_eq (b : Bool) (s : State) :
    indicator b s = { s with
      led := if s.cfg.ledPin ≠ 0#8 then b else s.led
      wave := s.wave ++ (if s.cfg.ledPin ≠ 0#8 then [.led b] else []) } := by
  by_cases h : s.cfg.ledPin = 0#8
  · simp [indicator, indicatorEnabled, h]
  · simp [indicator, indicatorEnabled, h, driveLed, emit]

/-- Settles O48: each row is its action in the Locked window, where a wait is exact, and then its next phase. -/
theorem lockedRows : Obligations.LockedRows := by
  intro s hst hlock
  rw [step_transmitting hst]
  refine ⟨fun hph => ?_, fun hph => ?_, fun hph => ?_, fun hph => ?_, fun d hph hd => ?_, fun hph => ?_,
    fun hph => ?_, fun hph => ?_⟩
  · simp only [sequencerStep, hph, indicator_eq]; rfl
  · simp only [sequencerStep, hph, driveWait_locked hlock]; rfl
  · simp only [sequencerStep, hph, driveWait_locked hlock]; rfl
  · simp only [sequencerStep, hph, pulseHigh, driveWait_locked hlock]; rfl
  · simp only [sequencerStep, hph, pbRead_of_entry hd, pulseLoStep, pulseLow, driveWait_locked hlock]; rfl
  · simp only [sequencerStep, hph, driveWait_locked hlock]; rfl
  · simp only [sequencerStep, hph, driveWait_locked hlock]; rfl
  · simp only [sequencerStep, hph, indicator_eq]; rfl

/-- YIELD handed back: the repetition is counted, and the last one ends the transmission (rule R199, code 11). -/
theorem yieldStep_yielded {s : State} (hst : s.st = .transmitting) :
    yieldStep (yielded s) = { s with
      yieldAnswers := spend 1 s.yieldAnswers
      st := if s.seq.rep + 1#8 = s.cfg.txCount then .idle else .transmitting
      seq := if s.seq.rep + 1#8 = s.cfg.txCount then Seq.start
        else { rep := s.seq.rep + 1#8, phase := .lockReq, pidx := 0#7 }
      wave := s.wave ++ [.yield], now := s.now + Config.yieldTime s.draws, draws := s.draws + 1 } := by
  by_cases hlast : s.seq.rep + 1#8 = s.cfg.txCount
  · simp [yieldStep, hlast, yielded, emit]
  · simp [yieldStep, hlast, yielded, emit, setSeq, hst]

/-- Settles O47: each row is its action, outside the Locked window with a drawn time, and then its next phase. -/
theorem lockGapAndYieldRows : Obligations.LockGapAndYieldRows := by
  intro s hst
  rw [step_transmitting hst]
  refine ⟨fun hph ha => ?_, fun hph => ?_, fun hph hlock => ?_, fun hph ha => ?_⟩
  · refine ⟨_, s.draws + 1, Nat.le_add_right _ (Config.grantLatency s.draws), ?_⟩
    simp only [sequencerStep, hph, enter_granted ha]; rfl
  · simp only [sequencerStep, hph]; rfl
  · refine ⟨_, s.draws + 1, Nat.le_add_right _ (Config.overshoot s.draws), ?_⟩
    simp only [sequencerStep, hph, wait_unlocked hlock]; rfl
  · refine ⟨_, s.draws + 1, Nat.le_add_right _ (Config.yieldTime s.draws), ?_⟩
    simp only [sequencerStep, hph, yieldTurn_answered ha, yieldStep_yielded hst]

end Sys2Proof.Machine
end

section
/-! The invariant of the machine, kept by the moves an IDLE core takes, by the encodings and by the rows of the step
table. -/

namespace Sys2Proof.Machine

open Sys2Proof

/-! ## Construction -/

@[simp] theorem entry_reset (j : Nat) : entry State.reset j = none := by
  unfold entry State.reset
  rw [Vector.getElem?_replicate]
  split <;> rfl

theorem entry_constructed (cfg : Cfg) (s : State) (j : Nat) : entry (constructed cfg s) j = none := entry_reset j

/-- A construction with the indicator off the output pin meets the invariant, whatever the state before it. -/
theorem constructed_coreInv {cfg : Cfg} {s : State} (hcfg : cfg.ledPin = 0#8 ∨ cfg.ledPin ≠ cfg.txPin)
    (hparams : ParamsWf s) : CoreInv (constructed cfg s) := by
  refine ⟨fun i _ => .inl ⟨entry_constructed _ _ _, entry_constructed _ _ _⟩, rfl, ?_, Nat.le_refl 0, hcfg, hparams,
    .inl rfl, fun _ => ⟨rfl, rfl, rfl, rfl⟩, fun h => ?_⟩
  · intro e he; cases he
  · cases h

/-- Settles O5: the reset state is a construction. -/
theorem resetMeetsTheInvariant : Obligations.ResetMeetsTheInvariant :=
  constructed_coreInv (cfg := State.reset.cfg) (s := State.reset) (.inl rfl) (by decide)

/-! ## The wire encoding -/

theorem wireWf_writePair {offset : Nat} {pair : Micros × Micros} {s : State} (h : offset < 36)
    (hpair : PairWf offset (some pair.1) (some pair.2)) (hs : WireWf s) : WireWf (writePair offset pair s) := by
  intro i hi
  rw [entry_writePair _ _ _ _ h, entry_writePair _ _ _ _ h]
  by_cases hio : i = offset
  · subst hio
    simpa using hpair
  · rw [if_neg (by omega), if_neg (by omega), if_neg (by omega), if_neg (by omega)]
    exact hs i hi

theorem wireWf_setBit {offset : Nat} (v : Bool) {s : State} (h : offset < 36) (hs : WireWf s) :
    WireWf (setBit offset v s) := by
  refine wireWf_writePair h ?_ hs
  cases v
  · exact .inr (.inl ⟨rfl, rfl⟩)
  · exact .inr (.inr (.inl ⟨rfl, rfl⟩))

theorem wireWf_setDimSel {s : State} (hs : WireWf s) : WireWf (setDimSel s) :=
  wireWf_writePair (by decide) (.inr (.inr (.inr ⟨rfl, rfl, rfl⟩))) hs

theorem wireWf_setField {base : Nat} {bs : List Bool} {s : State} (h : base + bs.length ≤ 36) (hs : WireWf s) :
    WireWf (setField base bs s) := by
  induction bs generalizing base s with
  | nil => exact hs
  | cons b bs ih =>
    rw [List.length_cons] at h
    exact ih (by omega) (wireWf_setBit b (by omega) hs)

theorem wireWf_setCtrl {s : State} (hs : WireWf s) : WireWf (setCtrl s) := wireWf_setField (by simp) hs

theorem wireWf_setDev (address : Byte) {s : State} (hs : WireWf s) : WireWf (setDev address s) :=
  wireWf_setField (by simp [deviceOffset]) hs

theorem wireWf_setDim (level4 : Byte) {s : State} (hs : WireWf s) : WireWf (setDim level4 s) :=
  wireWf_setField (by simp [dimOffset]) hs

/-- A written entry of a buffer of the wire encoding is one of the two low periods (rule R92). -/
theorem wireWf_entry {s : State} {j : Nat} {d : Micros} (hs : WireWf s) (hj : j < 72) (hd : entry s j = some d) :
    d = tShort ∨ d = tLong := by
  have hpair := hs (j / 2) (by omega)
  obtain hm | hm : j = 2 * (j / 2) ∨ j = 2 * (j / 2) + 1 := by omega
  all_goals
    rw [hm] at hd
    rw [hd] at hpair
    simp only [PairWf, reduceCtorEq, Option.some.injEq] at hpair
    grind

/-! ## The encodings -/

/-- `f` is `s` with a frame of physical length `plen` encoded into its buffer: the wire encoding is kept, and every
entry below `plen` is written (rules R76, R109). -/
abbrev Encoded (s f : State) (plen : PulseIndex) : Prop :=
  SameButBuffer s f ∧ (WireWf s → WireWf f) ∧ (plen = plen32 ∨ plen = plen36) ∧
    ∀ j < plen.toNat, (entry f j).isSome = true

theorem plainFields_encoded (g c : Bool) (address : Byte) (s : State) :
    Encoded s (setDev address (setBit commandFlagOffset c (setBit groupFlagOffset g (setCtrl s)))) plen32 := by
  refine ⟨?_, fun hs => ?_, .inl rfl, fun j hj => holdsFrame_written (plainFields_holdsFrame g c address) j hj⟩
  · exact (((setCtrl_eq s).trans (sameButBuffer_setBit _ _ _)).trans (sameButBuffer_setBit _ _ _)).trans (setDev_eq _ _)
  · exact wireWf_setDev _ (wireWf_setBit _ (by decide) (wireWf_setBit _ (by decide) (wireWf_setCtrl hs)))

theorem dimFields_encoded (s : State) : Encoded s (dimFields s) plen36 := by
  refine ⟨dimFields_eq s, fun hs => ?_, .inr rfl, fun j hj => holdsFrame_written (symAt_dimFields s) j hj⟩
  exact wireWf_setDim _ (wireWf_setDev _ (wireWf_setDimSel (wireWf_setBit _ (by decide) (wireWf_setCtrl hs))))

/-- An encoding that completes is a frame written into the buffer and the launch of its transmission (rule R160). -/
theorem resumeEncoding_cases {s t : State} (h : resumeEncoding s = .next t) :
    ∃ plen f, Encoded s f plen ∧ t = launch plen f := by
  have hoff : ∃ plen f, Encoded s f plen ∧ encodeOff s = launch plen f :=
    ⟨_, _, plainFields_encoded false false s.dev s, rfl⟩
  have hon : ∃ plen f, Encoded s f plen ∧ encodeOn s = launch plen f :=
    ⟨_, _, plainFields_encoded false true s.dev s, rfl⟩
  have hdim : ∃ plen f, Encoded s f plen ∧ encodeDim s = launch plen f := ⟨_, _, dimFields_encoded s, rfl⟩
  unfold resumeEncoding at h
  split_ifs at h <;> cases h
  · exact hoff
  · exact hon
  · exact ⟨_, _, plainFields_encoded true false 0#8 s, rfl⟩
  · exact ⟨_, _, plainFields_encoded true true 0#8 s, rfl⟩
  · exact hdim
  · unfold encodeSwitch
    split_ifs
    · exact hoff
    · exact hon
    · exact hdim

/-- The launch of an encoded frame, from a core at rest, meets the invariant. -/
theorem launch_coreInv {s f : State} {plen : PulseIndex} (hs : CoreInv s) (hst : s.st ≠ .transmitting)
    (hf : Encoded s f plen) : CoreInv (launch plen f) := by
  obtain ⟨hwire, hbalance, hwaits, hclock, hcfg, hparams, -, hrest, -⟩ := hs
  obtain ⟨hlock, htx, hled, hseq⟩ := hrest hst
  obtain ⟨hsame, hwire', hplen, hwritten⟩ := hf
  have hwireT : WireWf (launch plen f) := by
    intro i hi
    rw [entry_congr (launch_pb f plen), entry_congr (launch_pb f plen)]
    exact hwire' hwire i hi
  have hwrittenT : ∀ j < plen.toNat, (entry (launch plen f) j).isSome = true := by
    intro j hj
    rw [entry_congr (launch_pb f plen)]
    exact hwritten j hj
  obtain ⟨pb, rfl⟩ : ∃ pb, f = { s with pb := pb } := ⟨f.pb, hsame⟩
  refine ⟨hwireT, ?_, ?_, ?_, ?_, ?_, ?_, ?_, ?_⟩
  · simpa [LockBalanced] using hbalance
  · simpa [WaitsWf] using hwaits
  · simp only [ClockWf, launch_wave, launch_now]; omega
  · simpa [CfgWf] using hcfg
  · simpa [ParamsWf] using hparams
  · rw [PlenWf, launch_plen]; exact .inr hplen
  · intro _
    simp [AtRest, hlock, htx, hled, hseq]
  · intro hsending
    have hcount : s.cfg.txCount ≠ 0#8 := by
      intro h0
      simp [h0] at hsending
    have hpos : 0 < s.cfg.txCount.toNat := by
      have := fun h0 => hcount (BitVec.eq_of_toNat_eq (y := 0#8) h0)
      simp at this; omega
    refine ⟨?_, ?_, ?_, ?_, ?_, ?_, ?_⟩
    · rw [launch_plen]; exact hplen
    · rw [launch_plen]; exact hwrittenT
    · simpa [hcount, Seq.start] using hpos
    · simp [PidxWf, hcount, Seq.start]
    · simp [hcount, hlock, Seq.start, phaseLocked]
    · simp [hcount, htx, Seq.start, phaseTxHigh]
    · simp [hcount, hled, Seq.start, phaseLedHigh]

/-! ## The moves an IDLE core takes -/

/-- A word on an IDLE core raises the flag, or is the encoding of what its fields latch (rules R160, R235). -/
theorem exec_decode_idle {s : State} (hs : s.st = .idle) (w : CmdWord) :
    exec (decode w) s = .next (raiseIllegal s) ∨
      (opField w < 6#8 ∧
        exec (decode w) s = resumeEncoding (acceptCommand (opField w) (devField w) (valField w) s)) := by
  rcases decode_cases w with ⟨h, d⟩ | ⟨h, d⟩ | ⟨h, d⟩ | ⟨h, d⟩ | ⟨h, d⟩ | ⟨h, d⟩ | ⟨h, d⟩ <;> rw [d]
  · exact .inr ⟨by rw [h]; decide, by rw [h]; exact execOff_idle hs _ _⟩
  · exact .inr ⟨by rw [h]; decide, by rw [h]; exact execOn_idle hs _ _⟩
  · exact .inr ⟨by rw [h]; decide, by rw [h]; exact execGroupOff_idle hs _ _⟩
  · exact .inr ⟨by rw [h]; decide, by rw [h]; exact execGroupOn_idle hs _ _⟩
  · exact .inr ⟨by rw [h]; decide, by rw [h]; exact execDim_idle hs _ _⟩
  · exact .inr ⟨by rw [h]; decide, by rw [h]; exact execSwitch_idle hs _ _⟩
  · exact .inl (execIllegal_idle (opField w) (devField w) (valField w) hs)

/-- What a word that runs on an IDLE core leaves: the flag set, or a frame launched (rules R160, R235). -/
theorem exec_decode_cases {s t : State} (hs : s.st = .idle) {w : CmdWord} (h : exec (decode w) s = .next t) :
    t = raiseIllegal s ∨
      ∃ plen f, Encoded (acceptCommand (opField w) (devField w) (valField w) s) f plen ∧ t = launch plen f := by
  obtain hraise | ⟨-, hresume⟩ := exec_decode_idle hs w
  · exact .inl (Host.Outcome.next.inj (h.symm.trans hraise))
  · exact .inr (resumeEncoding_cases (hresume.symm.trans h))

theorem execConstruct_cases {txPin : Byte} {controllerId : Option (BitVec 32)} {txCount ledPin : Option Byte}
    {s t : State} (h : execConstruct txPin controllerId txCount ledPin s = .next t) :
    (ledPin.getD 0#8 = 0#8 ∨ ledPin.getD 0#8 ≠ txPin) ∧
      t = constructed (cfgOf txPin controllerId txCount ledPin) s := by
  unfold execConstruct at h
  split_ifs at h with _ hpin
  cases h
  exact ⟨by tauto, rfl⟩

/-- The move that a step of an IDLE core takes (rules R236, R247, R260, R271). -/
inductive IdleStep (s : State) : State → Prop where
  | waits : IdleStep s s
  | runs (w : CmdWord) (rest : List Move) (t : State) : s.moves = .command w :: rest →
      exec (decode w) { s with moves := rest } = .next t → IdleStep s t
  | constructs (txPin : Byte) (controllerId : Option (BitVec 32)) (txCount ledPin : Option Byte) (rest : List Move) :
      s.moves = .construct txPin controllerId txCount ledPin :: rest →
      (ledPin.getD 0#8 = 0#8 ∨ ledPin.getD 0#8 ≠ txPin) →
      IdleStep s (constructed (cfgOf txPin controllerId txCount ledPin) { s with moves := rest })
  | pauses (d : Nat) (rest : List Move) : IdleStep s { s with moves := rest, now := s.now + d }
  | answers (locks yields : Option Nat) (rest : List Move) :
      IdleStep s { s with moves := rest, lockAnswers := locks, yieldAnswers := yields }

theorem step_idle_cases {s t : State} (hs : s.st = .idle) (h : step s = .next t) : IdleStep s t := by
  cases hm : s.moves with
  | nil => rw [step_idle_none hs hm] at h; cases h; exact .waits
  | cons m rest =>
    cases m with
    | command w => rw [step_idle_command hs hm] at h; exact .runs w rest t hm h
    | construct txPin controllerId txCount ledPin =>
      rw [step_idle_construct hs hm] at h
      obtain ⟨hpin, rfl⟩ := execConstruct_cases h
      exact .constructs txPin controllerId txCount ledPin rest hm hpin
    | pause d => rw [step_idle_pause hs hm] at h; cases h; exact .pauses d rest
    | platform locks yields => rw [step_idle_platform hs hm] at h; cases h; exact .answers locks yields rest

/-- The latches and ST matter to the invariant only in that a core that does not transmit is at rest. -/
theorem acceptCommand_coreInv {s : State} (h : CoreInv s) (hs : s.st = .idle) (op dev val : Byte) :
    CoreInv (acceptCommand op dev val s) := by
  obtain ⟨hwire, hbalance, hwaits, hclock, hcfg, hparams, hplen, hrest, -⟩ := h
  exact ⟨hwire, hbalance, hwaits, hclock, hcfg, hparams, hplen, fun _ => hrest (by simp [hs]), fun h => by cases h⟩

theorem idleStep_coreInv {s t : State} (h : CoreInv s) (hs : s.st = .idle) (hstep : IdleStep s t) : CoreInv t := by
  cases hstep with
  | waits => exact h
  | runs w rest t _ hexec =>
    have hrest : CoreInv { s with moves := rest } := h
    obtain rfl | ⟨plen, f, hf, rfl⟩ := exec_decode_cases (s := { s with moves := rest }) hs hexec
    · exact hrest
    · exact launch_coreInv (acceptCommand_coreInv hrest hs _ _ _) (by simp) hf
  | constructs txPin controllerId txCount ledPin rest _ hpin =>
    obtain ⟨-, -, -, -, -, hparams, -⟩ := h
    exact constructed_coreInv hpin hparams
  | pauses d rest =>
    obtain ⟨hwire, hbalance, hwaits, hclock, hcfg, hparams, hplen, hphase⟩ := h
    exact ⟨hwire, hbalance, hwaits, Nat.le_trans hclock (Nat.le_add_right _ _), hcfg, hparams, hplen, hphase⟩
  | answers locks yields rest => exact h

end Sys2Proof.Machine
end

section
/-! The invariant along the rows of the step table, and what follows from it (rules R28, R29, R76, R243). -/

namespace Sys2Proof.Machine

open Sys2Proof

/-! ## The rows -/

theorem CoreInv.sending {s : State} (h : CoreInv s) (hst : s.st = .transmitting) : Sending s := by
  obtain ⟨-, -, -, -, -, -, -, -, hsending⟩ := h
  exact hsending hst

theorem CoreInv.wireWf {s : State} (h : CoreInv s) : WireWf s := h.1

/-- What a row leaves alone, and what its events do to the lock, the clock and the trace. -/
structure RowFrame (s t : State) (es : List Event) : Prop where
  pb : t.pb = s.pb
  cfg : t.cfg = s.cfg
  params : t.params = s.params
  plen : t.plen = s.plen
  wave : t.wave = s.wave ++ es
  clock : s.now + waitSum es ≤ t.now
  waits : ∀ e ∈ es, waitAllowed e = true
  balance : (if s.lock = .locked then 1 else 0) + es.count .enter =
    es.count .leave + (if t.lock = .locked then 1 else 0)

/-- A row keeps the invariant if it leaves the pins, the lock and the sequencer as the next phase wants them. -/
theorem RowFrame.coreInv {s t : State} {es : List Event} (h : RowFrame s t es) (hs : CoreInv s) (ht : PhaseInv t) :
    CoreInv t := by
  obtain ⟨hwire, hbalance, hwaits, hclock, hcfg, hparams, hplen, -⟩ := hs
  refine ⟨fun i hi => ?_, ?_, ?_, ?_, ?_, ?_, ?_, ht⟩
  · rw [entry_congr h.pb, entry_congr h.pb]; exact hwire i hi
  · have := h.balance
    simp only [LockBalanced, h.wave, List.count_append] at hbalance ⊢
    omega
  · intro e he
    rw [h.wave, List.mem_append] at he
    exact he.elim (hwaits e) (h.waits e)
  · have := h.clock
    simp only [ClockWf, h.wave, waitSum_append] at hclock ⊢
    omega
  · rw [CfgWf, h.cfg]; exact hcfg
  · rw [ParamsWf, h.params]; exact hparams
  · rw [PlenWf, h.plen]; exact hplen

/-- The clauses of `Sending` that no row of one repetition touches. -/
theorem Sending.move {s t : State} {es : List Event} (hs : Sending s) (h : RowFrame s t es)
    (hrep : t.seq.rep.toNat < s.cfg.txCount.toNat) (hpidx : PidxWf t)
    (hlock : t.lock = if phaseLocked t.seq.phase then .locked else .unlocked) (htx : t.tx = phaseTxHigh t.seq.phase)
    (hled : t.led = (indicatorEnabled s && phaseLedHigh t.seq.phase)) : Sending t := by
  obtain ⟨hlen, hwritten, -⟩ := hs
  have hen : indicatorEnabled t = indicatorEnabled s := by rw [indicatorEnabled, h.cfg]; rfl
  refine ⟨?_, ?_, ?_, hpidx, hlock, htx, ?_⟩
  · rw [h.plen]; exact hlen
  · intro j hj
    rw [h.plen] at hj
    rw [entry_congr h.pb]; exact hwritten j hj
  · rw [h.cfg]; exact hrep
  · rw [hen]; exact hled

/-- A drive and its wait, from one phase of the Locked window to another in which the indicator is the same. -/
theorem driveRow_coreInv {s : State} (hs : CoreInv s) (hst : s.st = .transmitting) {here : Phase}
    (hph : s.seq.phase = here) (b : Bool) (d : Delay) (phase : Phase) (pidx : PulseIndex)
    (hwait : waitAllowed (.wait d) = true) (hfrom : phaseLocked here = true)
    (hto : phaseLocked phase = true) (hled : phaseLedHigh here = phaseLedHigh phase)
    (htx : phaseTxHigh phase = b) (hpidx : PidxWf { s with seq := { s.seq with phase := phase, pidx := pidx } }) :
    CoreInv { s with
      tx := b, wave := s.wave ++ [.tx b, .wait d], now := s.now + d.toNat
      seq := { s.seq with phase := phase, pidx := pidx } } := by
  obtain ⟨-, -, hrep, -, hlock, -, hledS⟩ := hs.sending hst
  have hrow : RowFrame s { s with
      tx := b, wave := s.wave ++ [.tx b, .wait d], now := s.now + d.toNat
      seq := { s.seq with phase := phase, pidx := pidx } } [.tx b, .wait d] :=
    { pb := rfl, cfg := rfl, params := rfl, plen := rfl, wave := rfl
      clock := Nat.le_refl _
      waits := List.forall_mem_cons.2 ⟨rfl, List.forall_mem_singleton.2 hwait⟩
      balance := by simp }
  refine hrow.coreInv hs ⟨fun h => absurd hst h, fun _ => (hs.sending hst).move hrow hrep hpidx ?_ htx.symm ?_⟩
  · rw [hph, hfrom] at hlock; rw [hto]; exact hlock
  · rw [← hled, ← hph]; exact hledS

/-- The indicator's drive, from one phase of the Locked window to another in which it is as driven. -/
theorem indicatorRow_coreInv {s : State} (hs : CoreInv s) (hst : s.st = .transmitting) {here : Phase}
    (hph : s.seq.phase = here) (b : Bool) (phase : Phase) (hfrom : phaseLocked here = true)
    (hto : phaseLocked phase = true) (hled : phaseLedHigh phase = b) (htx : phaseTxHigh here = phaseTxHigh phase)
    (hpidx : PidxWf { s with seq := { s.seq with phase := phase } }) :
    CoreInv { s with
      led := if s.cfg.ledPin ≠ 0#8 then b else s.led
      wave := s.wave ++ (if s.cfg.ledPin ≠ 0#8 then [.led b] else [])
      seq := { s.seq with phase := phase } } := by
  obtain ⟨-, -, hrep, -, hlock, htxS, hledS⟩ := hs.sending hst
  have hrow : RowFrame s { s with
      led := if s.cfg.ledPin ≠ 0#8 then b else s.led
      wave := s.wave ++ (if s.cfg.ledPin ≠ 0#8 then [.led b] else [])
      seq := { s.seq with phase := phase } } (if s.cfg.ledPin ≠ 0#8 then [.led b] else []) :=
    { pb := rfl, cfg := rfl, params := rfl, plen := rfl, wave := rfl
      clock := by split <;> exact Nat.le_refl _
      waits := by split <;> simp [waitAllowed]
      balance := by by_cases hpin : s.cfg.ledPin = 0#8 <;> simp [hpin] }
  refine hrow.coreInv hs ⟨fun h => absurd hst h, fun _ => (hs.sending hst).move hrow hrep hpidx ?_ ?_ ?_⟩
  · rw [hph, hfrom] at hlock; rw [hto]; exact hlock
  · rw [← htx, ← hph]; exact htxS
  · by_cases hen : s.cfg.ledPin = 0#8
    · simp [hen, hledS, indicatorEnabled]
    · simp [hen, hled, indicatorEnabled]

theorem Sending.locked {s : State} (h : Sending s) (hph : phaseLocked s.seq.phase = true) : s.lock = .locked := by
  obtain ⟨-, -, -, -, hlock, -⟩ := h
  rw [hlock, if_pos hph]

theorem Sending.unlocked {s : State} (h : Sending s) (hph : phaseLocked s.seq.phase = false) : s.lock = .unlocked := by
  obtain ⟨-, -, -, -, hlock, -⟩ := h
  rw [hlock, hph, if_neg Bool.false_ne_true]

/-- In a data pulse of a transmission the entry is inside the buffer and written, with one of the two low periods. -/
theorem CoreInv.pulse_entry {s : State} (hs : CoreInv s) (hst : s.st = .transmitting) (hph : s.seq.phase = .pulseLo) :
    ∃ d, entry s s.seq.pidx.toNat = some d ∧ (d = tShort ∨ d = tLong) := by
  obtain ⟨hlen, hwritten, -, hpidx, -⟩ := hs.sending hst
  have hlt : s.seq.pidx.toNat < s.plen.toNat := by simpa [PidxWf, hph] using hpidx
  have hbuf : s.seq.pidx.toNat < 72 := by
    obtain h | h := hlen <;> rw [h] at hlt <;> simp [plen32, plen36] at hlt <;> omega
  obtain ⟨d, hd⟩ := Option.isSome_iff_exists.1 (hwritten _ hlt)
  exact ⟨d, hd, wireWf_entry hs.wireWf hbuf hd⟩

/-- After a data pulse the sequencer is at the next one, or past the last (rule R199, code 5). -/
theorem pidxWf_next {s : State} (hlen : s.plen = plen32 ∨ s.plen = plen36) (hlt : s.seq.pidx.toNat < s.plen.toNat) :
    PidxWf { s with seq := { s.seq with
      phase := if s.seq.pidx + 1#7 = s.plen then .postHi else .pulseHi, pidx := s.seq.pidx + 1#7 } } := by
  by_cases hlast : s.seq.pidx + 1#7 = s.plen
  · simp [PidxWf, hlast]
  · have hne : (s.seq.pidx + 1#7).toNat ≠ s.plen.toNat := fun h => hlast (BitVec.eq_of_toNat_eq h)
    have hsmall : s.plen.toNat ≤ 72 := by obtain h | h := hlen <;> rw [h] <;> decide
    simp only [PidxWf, hlast, if_false]
    rw [BitVec.toNat_add] at hne ⊢
    simp at hne ⊢
    omega

/-- A row that takes the lock, releases it or waits the gap: no pin is driven. -/
theorem quietRow_coreInv {s t : State} {es : List Event} (hs : CoreInv s) (hst : s.st = .transmitting) {here : Phase}
    (hph : s.seq.phase = here) (h : RowFrame s t es) (ht : t.st = .transmitting) (hrep : t.seq.rep = s.seq.rep)
    (htx : t.tx = s.tx) (hled : t.led = s.led) (htxHigh : phaseTxHigh here = phaseTxHigh t.seq.phase)
    (hledHigh : phaseLedHigh here = phaseLedHigh t.seq.phase)
    (hlock : t.lock = if phaseLocked t.seq.phase then .locked else .unlocked) (hpidx : PidxWf t) : CoreInv t := by
  obtain ⟨-, -, hrepS, -, -, htxS, hledS⟩ := hs.sending hst
  refine h.coreInv hs ⟨fun hne => absurd ht hne, fun _ => (hs.sending hst).move h (hrep ▸ hrepS) hpidx hlock ?_ ?_⟩
  · rw [htx, htxS, hph, htxHigh]
  · rw [hled, hledS, hph, hledHigh]

/-- YIELD, handed back: the next repetition starts, or the core is at rest after the last. -/
theorem yieldRow_coreInv {s : State} (hs : CoreInv s) (hst : s.st = .transmitting) (hph : s.seq.phase = .yield) :
    CoreInv (yieldStep (yielded s)) := by
  obtain ⟨-, -, hrep, -, -, htx, hled⟩ := hs.sending hst
  have hlock : s.lock = .unlocked := (hs.sending hst).unlocked (by rw [hph]; rfl)
  rw [hph] at htx hled
  simp only [phaseTxHigh, phaseLedHigh, Bool.and_false] at htx hled
  have hrow : RowFrame s (yieldStep (yielded s)) [.yield] :=
    { pb := by simp, cfg := by simp, params := by simp, plen := by simp, wave := by simp
      clock := by simp [waitSum], waits := by simp [waitAllowed], balance := by simp }
  refine hrow.coreInv hs ⟨fun hidle => ?_, fun hsending => ?_⟩
  · rw [yieldStep_yielded hst] at hidle ⊢
    have hlast : s.seq.rep + 1#8 = s.cfg.txCount := by by_contra hne; simp [hne] at hidle
    exact ⟨hlock, htx, hled, by simp [hlast]⟩
  · have hnext : s.seq.rep + 1#8 ≠ s.cfg.txCount := by
      intro hlast
      rw [yieldStep_yielded hst] at hsending
      simp [hlast] at hsending
    have hne : (s.seq.rep + 1#8).toNat ≠ s.cfg.txCount.toNat := fun h => hnext (BitVec.eq_of_toNat_eq h)
    refine (hs.sending hst).move hrow ?_ ?_ ?_ ?_ ?_
    all_goals simp only [yieldStep_yielded hst, if_neg hnext]
    · have := s.cfg.txCount.isLt
      rw [BitVec.toNat_add] at hne ⊢
      simp at hne ⊢
      omega
    · simp [PidxWf]
    · simpa [phaseLocked] using hlock
    · simpa [phaseTxHigh] using htx
    · simpa [phaseLedHigh] using hled

/-- A transmitting core keeps the invariant, by the rows of the step table (rule R199). -/
theorem transmitting_coreInv {s t : State} (hs : CoreInv s) (hst : s.st = .transmitting) (h : step s = .next t) :
    CoreInv t := by
  obtain ⟨hlen, -, -, hpidx, -⟩ := hs.sending hst
  have hlocked := (hs.sending hst).locked
  have hunlocked := (hs.sending hst).unlocked
  obtain ⟨hlockReq, hunlock, hgap, hyield⟩ := lockGapAndYieldRows s hst
  cases hph : s.seq.phase <;> simp only [PidxWf, hph] at hpidx <;> rw [hph] at hlocked hunlocked
  case lockReq =>
    by_cases ha : enough 1 s.lockAnswers = true
    · obtain ⟨now, draws, hnow, hrow⟩ := hlockReq hph ha
      cases hrow.symm.trans h
      refine quietRow_coreInv (es := [.enter]) hs hst hph ?_ hst rfl rfl rfl rfl rfl rfl (by simpa [PidxWf] using hpidx)
      exact { pb := rfl, cfg := rfl, params := rfl, plen := rfl, wave := rfl, clock := hnow
              waits := by simp [waitAllowed], balance := by simp [hunlocked rfl] }
    · cases (step_lockReq_withheld hst hph (by simp [enter, ha])).symm.trans h
      exact hs
  case ledOn =>
    obtain ⟨hrow, -⟩ := lockedRows s hst (hlocked rfl)
    cases (hrow hph).symm.trans h
    exact indicatorRow_coreInv hs hst hph true .preHi rfl rfl rfl rfl (by simpa [PidxWf] using hpidx)
  case preHi =>
    obtain ⟨-, hrow, -⟩ := lockedRows s hst (hlocked rfl)
    cases (hrow hph).symm.trans h
    exact driveRow_coreInv hs hst hph true 280#16 .preLo _ rfl rfl rfl rfl rfl (by simpa [PidxWf] using hpidx)
  case preLo =>
    obtain ⟨-, -, hrow, -⟩ := lockedRows s hst (hlocked rfl)
    cases (hrow hph).symm.trans h
    have hpos : s.plen ≠ 0#7 ∧ 0 < s.plen.toNat := by obtain h | h := hlen <;> rw [h] <;> decide
    rw [if_neg hpos.1]
    exact driveRow_coreInv hs hst hph false 2675#16 .pulseHi _ rfl rfl rfl rfl rfl (by simpa [PidxWf] using hpos.2)
  case pulseHi =>
    obtain ⟨-, -, -, hrow, -⟩ := lockedRows s hst (hlocked rfl)
    cases (hrow hph).symm.trans h
    exact driveRow_coreInv hs hst hph true 270#16 .pulseLo _ rfl rfl rfl rfl rfl (by simpa [PidxWf] using hpidx)
  case pulseLo =>
    obtain ⟨d, hd, hperiod⟩ := hs.pulse_entry hst hph
    obtain ⟨-, -, -, -, hrow, -⟩ := lockedRows s hst (hlocked rfl)
    cases (hrow d hph hd).symm.trans h
    have hwait : waitAllowed (.wait d) = true := by obtain rfl | rfl := hperiod <;> rfl
    refine driveRow_coreInv hs hst hph false d _ _ hwait rfl ?_ ?_ ?_ (pidxWf_next hlen (by simpa using hpidx))
    all_goals split <;> rfl
  case postHi =>
    obtain ⟨-, -, -, -, -, hrow, -⟩ := lockedRows s hst (hlocked rfl)
    cases (hrow hph).symm.trans h
    exact driveRow_coreInv hs hst hph true 280#16 .postLo _ rfl rfl rfl rfl rfl (by simpa [PidxWf] using hpidx)
  case postLo =>
    obtain ⟨-, -, -, -, -, -, hrow, -⟩ := lockedRows s hst (hlocked rfl)
    cases (hrow hph).symm.trans h
    exact driveRow_coreInv hs hst hph false 2675#16 .ledOff _ rfl rfl rfl rfl rfl (by simpa [PidxWf] using hpidx)
  case ledOff =>
    obtain ⟨-, -, -, -, -, -, -, hrow⟩ := lockedRows s hst (hlocked rfl)
    cases (hrow hph).symm.trans h
    exact indicatorRow_coreInv hs hst hph false .unlock rfl rfl rfl rfl (by simpa [PidxWf] using hpidx)
  case unlock =>
    cases (hunlock hph).symm.trans h
    refine quietRow_coreInv (es := [.leave]) hs hst hph ?_ hst rfl rfl rfl rfl rfl rfl (by simpa [PidxWf] using hpidx)
    exact { pb := rfl, cfg := rfl, params := rfl, plen := rfl, wave := rfl, clock := Nat.le_refl _
            waits := by simp [waitAllowed], balance := by simp [hlocked rfl] }
  case gap =>
    obtain ⟨now, draws, hnow, hrow⟩ := hgap hph (hunlocked rfl)
    cases hrow.symm.trans h
    refine quietRow_coreInv (es := [.wait 9500#16]) hs hst hph ?_ hst rfl rfl rfl rfl rfl (hunlocked rfl)
      (by simpa [PidxWf] using hpidx)
    exact { pb := rfl, cfg := rfl, params := rfl, plen := rfl, wave := rfl, clock := hnow
            waits := by simp [waitAllowed], balance := by simp }
  case yield =>
    by_cases ha : enough 1 s.yieldAnswers = true
    · have hrow : step s = .next (yieldStep (yielded s)) := by
        simp only [step_transmitting hst, sequencerStep, hph, yieldTurn_answered ha]
      cases hrow.symm.trans h
      exact yieldRow_coreInv hs hst hph
    · cases (step_yield_withheld hst hph (by simp [yieldTurn, ha])).symm.trans h
      exact hs

/-- Settles O6, by the state of the core: an IDLE core takes a move, an ENCODING one launches the frame it encodes, a
TRANSMITTING one runs a row. -/
theorem stepKeepsTheInvariant : Obligations.StepKeepsTheInvariant := by
  intro s t hs h
  cases hst : s.st with
  | idle => exact idleStep_coreInv hs hst (step_idle_cases hst h)
  | encoding =>
    obtain ⟨plen, f, hf, rfl⟩ := resumeEncoding_cases ((step_encoding hst).symm.trans h)
    exact launch_coreInv hs (by simp [hst]) hf
  | transmitting => exact transmitting_coreInv hs hst h

/-! ## What the invariant rules out -/

/-- The one fault of an encoding is the model's own (log entry 17). -/
theorem resumeEncoding_fault {s : State} {f : Fault} (h : resumeEncoding s = .fault f) : f = .encodingNoCommand := by
  unfold resumeEncoding at h
  split_ifs at h
  exact (Host.Outcome.fault.inj h).symm

/-- An IDLE core does not fault: a legal opcode has an encoding (rules R101, R249). -/
theorem step_idle_ne_fault {s : State} (hs : s.st = .idle) (f : Fault) : step s ≠ .fault f := by
  intro h
  cases hm : s.moves with
  | nil => rw [step_idle_none hs hm] at h; cases h
  | cons m rest =>
    cases m with
    | command w =>
      rw [step_idle_command hs hm] at h
      obtain hraise | ⟨hop, -⟩ := exec_decode_idle (s := { s with moves := rest }) hs w
      · cases hraise.symm.trans h
      · obtain ⟨t, ht, -⟩ := exec_command (s := { s with moves := rest }) hs hop
        cases ht.symm.trans h
    | construct txPin controllerId txCount ledPin =>
      rw [step_idle_construct hs hm] at h
      change execConstruct txPin controllerId txCount ledPin { s with moves := rest } = .fault f at h
      unfold execConstruct at h
      split_ifs at h
    | pause d => rw [step_idle_pause hs hm] at h; cases h
    | platform locks yields => rw [step_idle_platform hs hm] at h; cases h

/-- The one row that can fault is a data pulse whose entry cannot be read (rule R199, code 5). -/
theorem sequencerStep_fault {s : State} {f : Fault} (h : sequencerStep s = .fault f) :
    s.seq.phase = .pulseLo ∧ pbRead s.seq.pidx.toNat s = .error f := by
  cases hph : s.seq.phase <;> simp only [sequencerStep, hph, reduceCtorEq] at h
  case lockReq => cases he : enter s <;> rw [he] at h <;> cases h
  case pulseLo =>
    cases hr : pbRead s.seq.pidx.toNat s with
    | ok d => rw [hr] at h; cases h
    | error e => rw [hr] at h; exact ⟨rfl, congrArg Except.error (Host.Outcome.fault.inj h)⟩
  case yield => cases hy : yieldTurn s <;> rw [hy] at h <;> cases h

/-- Settles O7: under the invariant the entry of every data pulse is written, and an IDLE core does not fault. -/
theorem noStepReadsAnUnwrittenEntry : Obligations.NoStepReadsAnUnwrittenEntry := by
  intro s f hs h
  cases hst : s.st with
  | idle => exact absurd h (step_idle_ne_fault hst f)
  | encoding => exact ⟨rfl, resumeEncoding_fault ((step_encoding hst).symm.trans h)⟩
  | transmitting =>
    obtain ⟨hph, hread⟩ := sequencerStep_fault ((step_transmitting hst).symm.trans h)
    obtain ⟨d, hd, -⟩ := hs.pulse_entry hst hph
    cases hread.symm.trans (pbRead_of_entry hd)

/-- A disabled indicator is low, at rest and in a transmission (rule R41). -/
theorem CoreInv.led_low {s : State} (hs : CoreInv s) (hpin : s.cfg.ledPin = 0#8) : s.led = false := by
  obtain ⟨-, -, -, -, -, -, -, hrest, hsending⟩ := hs
  by_cases hst : s.st = .transmitting
  · obtain ⟨-, -, -, -, -, -, hled⟩ := hsending hst
    simpa [indicatorEnabled, hpin] using hled
  · obtain ⟨-, -, hled, -⟩ := hrest hst
    exact hled

/-- Settles O52: an enabled indicator is not on the output pin, so each of the two pins selects its own level. -/
theorem outputsFollowTheirPins : Obligations.OutputsFollowTheirPins := by
  intro s hs
  refine ⟨if_pos rfl, fun hpin => ?_, hs.led_low, fun pin htx hled => ?_⟩
  · obtain ⟨-, -, -, -, hcfg, -⟩ := hs
    rw [drivenLevel, if_neg (hcfg.resolve_left hpin), if_pos ⟨by simp [indicatorEnabled, hpin], rfl⟩]
  · rw [drivenLevel, if_neg htx, if_neg]
    rintro ⟨hen, rfl⟩
    simp [indicatorEnabled] at hen
    tauto

end Sys2Proof.Machine
end

section
/-! Construction (rules R39, R260, R261) and the command port (rules R236, R238, R247, R271). -/

namespace Sys2Proof.Machine

open Sys2Proof

/-! ## Construction -/

/-- Settles O4: the buffer is unwritten by `entry_reset`, and every other clause is a field of the reset state. -/
theorem resetValues : Obligations.ResetValues :=
  ⟨entry_reset, rfl, rfl, rfl, rfl, rfl, rfl, rfl, rfl, rfl, rfl, rfl⟩

/-- A construction that neither rule R29 nor rule R261 rules out. -/
theorem execConstruct_idle {txPin : Byte} (controllerId : Option (BitVec 32)) (txCount : Option Byte)
    {ledPin : Option Byte} {s : State} (hs : s.st = .idle) (hpin : ledPin.getD 0#8 = 0#8 ∨ ledPin.getD 0#8 ≠ txPin) :
    execConstruct txPin controllerId txCount ledPin s =
      .next (constructed (cfgOf txPin controllerId txCount ledPin) s) := by
  rw [execConstruct, if_neg (not_not.2 hs), if_neg (by tauto)]

/-- Settles O8: `CFG` is `cfgOf` of the options, given or absent, and `constructed` gives every other field. -/
theorem constructWritesTheConfiguration : Obligations.ConstructWritesTheConfiguration := by
  intro s txPin controllerId txCount ledPin hs hpin
  refine ⟨_, execConstruct_idle controllerId txCount hs hpin, rfl, ?_, ?_, ?_, ?_, ?_, ?_, entry_constructed _ s,
    rfl, rfl, rfl, rfl, rfl, rfl, rfl, rfl, rfl, rfl, rfl, rfl, rfl⟩
  · rintro v rfl; exact BitVec.toNat_setWidth 26 v
  · rintro rfl; rfl
  · rintro n rfl; rfl
  · rintro rfl; rfl
  · rintro p rfl; rfl
  · rintro rfl; rfl

/-- Settles O9: the two tests of a construction, in their order. -/
theorem constructRefusesWhatTheSpecRefuses : Obligations.ConstructRefusesWhatTheSpecRefuses := by
  constructor
  · intro s txPin controllerId txCount hs hpin
    exact (if_neg (not_not.2 hs)).trans (if_pos ⟨hpin, rfl⟩)
  · intro s txPin controllerId txCount ledPin hs
    exact if_pos hs

/-! ## An IDLE core -/

/-- Settles O11: `step_idle_command`. -/
theorem stepRunsThePresentedWord : Obligations.StepRunsThePresentedWord :=
  fun _ _ _ hs hm => step_idle_command hs hm

/-- Settles O12: `step_idle_construct`. -/
theorem stepRunsTheConstruction : Obligations.StepRunsTheConstruction :=
  fun _ _ _ _ _ _ hs hm => step_idle_construct hs hm

/-- Settles O13: the placed word is the present move of an IDLE core, and its table number is its own decoding. -/
theorem placedWordRuns : Obligations.PlacedWordRuns := by
  intro s nbits w i hdec
  obtain ⟨-, hword⟩ := Option.ite_none_right_eq_some.1 hdec
  rw [← Option.some.inj hword]
  exact step_idle_command (s := s.withFetchWord nbits w) rfl rfl

/-- Settles O14: `step_idle_none`. -/
theorem idleCoreWaits : Obligations.IdleCoreWaits := fun _ hs hm => step_idle_none hs hm

/-- Settles O53: `step_idle_pause` and `step_idle_platform`. -/
theorem idleCoreTakesPausesAndAnswers : Obligations.IdleCoreTakesPausesAndAnswers :=
  fun _ _ hs => ⟨fun _ hm => step_idle_pause hs hm, fun _ _ hm => step_idle_platform hs hm⟩

/-! ## A busy core -/

theorem execIllegal_busy (op dev val : Byte) {s : State} (hs : s.st ≠ .idle) : execIllegal op dev val s = .next s := by
  cases h : s.st <;> simp_all [execIllegal]

/-- Settles O15, by what the word decodes to: a busy core accepts neither a command nor the illegal word. -/
theorem busyCoreAcceptsNoWord : Obligations.BusyCoreAcceptsNoWord := by
  intro s w hs
  rcases decode_cases w with ⟨-, d⟩ | ⟨-, d⟩ | ⟨-, d⟩ | ⟨-, d⟩ | ⟨-, d⟩ | ⟨-, d⟩ | ⟨-, d⟩ <;> rw [d]
  case inr.inr.inr.inr.inr.inr => exact execIllegal_busy (opField w) (devField w) (valField w) hs
  all_goals exact congrArg Host.Outcome.next (runCommand_busy hs _ _ _ _)

/-- The state with another list of moves to come. -/
def withMoves (moves : List Move) (s : State) : State := { s with moves := moves }

section
variable (moves : List Move) (s : State)

theorem wait_withMoves (d : Delay) : wait d (withMoves moves s) = withMoves moves (wait d s) := by
  cases h : s.lock <;> simp [wait, withMoves, emit, h]

theorem indicator_withMoves (b : Bool) : indicator b (withMoves moves s) = withMoves moves (indicator b s) := by
  rw [indicator_eq, indicator_eq]; rfl

theorem yieldStep_withMoves : yieldStep (withMoves moves s) = withMoves moves (yieldStep s) := by
  unfold yieldStep
  rw [apply_ite (withMoves moves)]
  rfl

theorem launch_withMoves (plen : PulseIndex) : launch plen (withMoves moves s) = withMoves moves (launch plen s) := by
  unfold launch
  dsimp only
  rw [apply_ite (withMoves moves)]
  rfl

theorem setField_withMoves (base : Nat) (bs : List Bool) :
    setField base bs (withMoves moves s) = withMoves moves (setField base bs s) := by
  induction bs generalizing base s with
  | nil => rfl
  | cons b bs ih => exact ih (setBit base b s) (base + 1)

theorem setCtrl_withMoves : setCtrl (withMoves moves s) = withMoves moves (setCtrl s) := setField_withMoves _ _ _ _

theorem setDev_withMoves (address : Byte) : setDev address (withMoves moves s) = withMoves moves (setDev address s) :=
  setField_withMoves _ _ _ _

theorem plainEncoding_withMoves (g c : Bool) (address : Byte) :
    launch plen32
        (setDev address (setBit commandFlagOffset c (setBit groupFlagOffset g (setCtrl (withMoves moves s))))) =
      withMoves moves
        (launch plen32 (setDev address (setBit commandFlagOffset c (setBit groupFlagOffset g (setCtrl s))))) := by
  rw [setCtrl_withMoves, ← launch_withMoves, ← setDev_withMoves]
  rfl

theorem encodeDim_withMoves : encodeDim (withMoves moves s) = withMoves moves (encodeDim s) := by
  unfold encodeDim dimFields setDim
  rw [setCtrl_withMoves, ← launch_withMoves, ← setField_withMoves, ← setDev_withMoves]
  rfl

theorem encodeSwitch_withMoves : encodeSwitch (withMoves moves s) = withMoves moves (encodeSwitch s) := by
  have hval : (withMoves moves s).val = s.val := rfl
  have hparams : (withMoves moves s).params = s.params := rfl
  simp only [encodeSwitch, hval, hparams]
  split_ifs
  · exact plainEncoding_withMoves moves s false false s.dev
  · exact plainEncoding_withMoves moves s false true s.dev
  · exact encodeDim_withMoves moves s

/-- The encoding of an ENCODING core reads and writes no move. -/
theorem resumeEncoding_withMoves :
    resumeEncoding (withMoves moves s) = andThen (resumeEncoding s) (fun t => .next (withMoves moves t)) := by
  have hop : (withMoves moves s).op = s.op := rfl
  simp only [resumeEncoding, hop]
  split_ifs
  · exact congrArg Host.Outcome.next (plainEncoding_withMoves moves s false false s.dev)
  · exact congrArg Host.Outcome.next (plainEncoding_withMoves moves s false true s.dev)
  · exact congrArg Host.Outcome.next (plainEncoding_withMoves moves s true false 0#8)
  · exact congrArg Host.Outcome.next (plainEncoding_withMoves moves s true true 0#8)
  · exact congrArg Host.Outcome.next (encodeDim_withMoves moves s)
  · exact congrArg Host.Outcome.next (encodeSwitch_withMoves moves s)
  · rfl

theorem driveWait_withMoves (b : Bool) (d : Delay) :
    wait d (driveTx b (withMoves moves s)) = withMoves moves (wait d (driveTx b s)) :=
  wait_withMoves moves (driveTx b s) d

theorem enter_withMoves : enter (withMoves moves s) = (enter s).map (withMoves moves) := by
  unfold enter
  rw [apply_ite (Option.map (withMoves moves))]
  rfl

theorem yieldTurn_withMoves : yieldTurn (withMoves moves s) = (yieldTurn s).map (withMoves moves) := by
  unfold yieldTurn
  rw [apply_ite (Option.map (withMoves moves))]
  rfl

/-- A row of the step table reads and writes no move. -/
theorem sequencerStep_withMoves :
    sequencerStep (withMoves moves s) = andThen (sequencerStep s) (fun t => .next (withMoves moves t)) := by
  have hseq : (withMoves moves s).seq = s.seq := rfl
  have hread : ∀ j, pbRead j (withMoves moves s) = pbRead j s := fun _ => rfl
  cases hph : s.seq.phase <;> simp only [sequencerStep, hseq, hph]
  case lockReq => rw [enter_withMoves]; cases enter s <;> rfl
  case ledOn => rw [indicator_withMoves]; rfl
  case preHi => rw [driveWait_withMoves]; rfl
  case preLo => rw [driveWait_withMoves]; rfl
  case pulseHi => rw [pulseHigh, driveWait_withMoves]; rfl
  case pulseLo =>
    rw [hread]
    cases pbRead s.seq.pidx.toNat s with
    | ok d =>
      change Host.Outcome.next (pulseLoStep d (withMoves moves s)) = _
      rw [pulseLoStep, pulseLow, driveWait_withMoves]; rfl
    | error f => rfl
  case postHi => rw [driveWait_withMoves]; rfl
  case postLo => rw [driveWait_withMoves]; rfl
  case ledOff => rw [indicator_withMoves]; rfl
  case unlock => rfl
  case gap => rw [wait_withMoves]; rfl
  case yield =>
    rw [yieldTurn_withMoves]
    cases yieldTurn s with
    | none => rfl
    | some t => exact congrArg Host.Outcome.next (yieldStep_withMoves moves t)
end

theorem step_withMoves {s : State} (hs : s.st ≠ .idle) (moves : List Move) :
    step (withMoves moves s) = andThen (step s) (fun t => .next (withMoves moves t)) := by
  cases hst : s.st with
  | idle => exact absurd hst hs
  | encoding =>
    rw [step_encoding hst, step_encoding (s := withMoves moves s) hst, resumeEncoding_withMoves]
  | transmitting =>
    rw [step_transmitting hst, step_transmitting (s := withMoves moves s) hst, sequencerStep_withMoves]

theorem sequencerStep_ne_refused (s : State) (r : Refusal) : sequencerStep s ≠ .refused r := by
  intro h
  cases hph : s.seq.phase <;> simp only [sequencerStep, hph, reduceCtorEq] at h
  case lockReq => cases he : enter s <;> rw [he] at h <;> cases h
  case pulseLo => cases hr : pbRead s.seq.pidx.toNat s <;> rw [hr] at h <;> cases h
  case yield => cases hy : yieldTurn s <;> rw [hy] at h <;> cases h

/-- A busy core refuses nothing: it takes no move that could be refused (rule R236). -/
theorem step_busy_ne_refused {s : State} (hs : s.st ≠ .idle) (r : Refusal) : step s ≠ .refused r := by
  cases hst : s.st with
  | idle => exact absurd hst hs
  | encoding =>
    rw [step_encoding hst, resumeEncoding]
    split_ifs <;> simp
  | transmitting => rw [step_transmitting hst]; exact sequencerStep_ne_refused s r

/-- Settles O16: a step of a busy core commutes with putting another list of moves; its own list is such a list. -/
theorem busyStepIgnoresTheHost : Obligations.BusyStepIgnoresTheHost := by
  intro s moves hs
  have hstep := step_withMoves hs
  refine ⟨fun t ht => ⟨?_, ?_⟩, fun f hf => ?_, step_busy_ne_refused hs⟩
  · exact (hstep moves).trans (by rw [ht]; rfl)
  · have hown : step s = .next (withMoves s.moves t) := (hstep s.moves).trans (by rw [ht]; rfl)
    have hsame : t = withMoves s.moves t := Host.Outcome.next.inj (ht.symm.trans hown)
    exact (congrArg State.moves hsame).trans rfl
  · exact (hstep moves).trans (by rw [hf]; rfl)

/-! ## The sticky flag -/

theorem Encoded.illCmd {s f : State} {plen : PulseIndex} (h : Encoded s f plen) :
    (launch plen f).illCmd = s.illCmd := by
  obtain ⟨hsame, -⟩ := h
  rw [launch_illCmd]
  exact (congrArg State.illCmd hsame).trans rfl

/-- Settles O18: an encoding and a row leave the flag, and of the moves of an IDLE core construction alone clears it. -/
theorem illegalFlagIsSticky : Obligations.IllegalFlagIsSticky := by
  intro s t h hflag
  cases hst : s.st with
  | idle =>
    cases step_idle_cases hst h with
    | waits => exact .inl hflag
    | runs w rest t _ hexec =>
      obtain rfl | ⟨plen, f, hf, rfl⟩ := exec_decode_cases (s := { s with moves := rest }) hst hexec
      · exact .inl rfl
      · exact .inl (hf.illCmd.trans hflag)
    | constructs txPin controllerId txCount ledPin rest hm _ => exact .inr ⟨rfl, _, _, _, _, rest, hm⟩
    | pauses d rest => exact .inl hflag
    | answers locks yields rest => exact .inl hflag
  | encoding =>
    obtain ⟨plen, f, hf, rfl⟩ := resumeEncoding_cases ((step_encoding hst).symm.trans h)
    exact .inl (hf.illCmd.trans hflag)
  | transmitting =>
    obtain ⟨-, -, -, -, -, -, hill⟩ := transmissionKeepsTheBuffer s t hst h
    exact .inl (hill.trans hflag)

end Sys2Proof.Machine
end

section
/-! The commands' frames (rules R161 to R167, R170), the pure operations (rules R130, R164) and the order of the field
writes (rule R148). -/

namespace Sys2Proof.Machine

open Sys2Proof

/-! ## The frames -/

/-- Settles O19: `plainEncoding_spec` with both flags 0. -/
theorem offSendsItsFrame : Obligations.OffSendsItsFrame := by
  intro s dev val hs
  exact ⟨decode_cmdWord_off dev val, _, execOff_idle hs dev val, plainEncoding_spec rfl false false dev⟩

/-- Settles O20: `plainEncoding_spec` with the command flag 1. -/
theorem onSendsItsFrame : Obligations.OnSendsItsFrame := by
  intro s dev val hs
  exact ⟨decode_cmdWord_on dev val, _, execOn_idle hs dev val, plainEncoding_spec rfl false true dev⟩

/-- Settles O21: `plainEncoding_spec` with the group flag 1 and device 0, for either command flag. -/
theorem groupCommandsSendTheirFrames : Obligations.GroupCommandsSendTheirFrames := by
  intro s dev val hs
  refine ⟨decode_cmdWord_groupOn dev val, decode_cmdWord_groupOff dev val, ?_, ?_⟩
  · exact ⟨_, execGroupOn_idle hs dev val, plainEncoding_spec rfl true true 0#8⟩
  · exact ⟨_, execGroupOff_idle hs dev val, plainEncoding_spec rfl true false 0#8⟩

/-- Settles O22: `dimEncoding_spec`, with what RESCALE gives in each mode. -/
theorem dimSendsItsFrame : Obligations.DimSendsItsFrame := by
  intro s dev level hs
  obtain ⟨hafter, hframe⟩ := dimEncoding_spec (s := s) 0x04#8 dev level
  refine ⟨decode_cmdWord_dim dev level, _, execDim_idle hs dev level, hafter, fun hmode => ?_, fun hmode => ?_⟩
  · rw [hmode, rescale_intended_toNat] at hframe
    exact hframe
  · rw [hmode, rescale_reference] at hframe
    exact hframe

/-! ## The same command again -/

/-- An accepted command leaves `CFG` and the parameters, which are all that its frame is built from besides its word. -/
theorem AfterCommand.sameFrame {s t : State} {op dev val : Byte} {plen : PulseIndex}
    (h : AfterCommand s t op dev val plen) (w : CmdWord) :
    commandFrame w t.cfg.cid t.params = commandFrame w s.cfg.cid s.params := by
  obtain ⟨-, hstate⟩ := h
  rw [hstate]

/-- Settles O24: an illegal word writes no entry, and a command writes its frame again and leaves the rest again. -/
theorem sameCommandTwiceSameBuffer : Obligations.SameCommandTwiceSameBuffer := by
  intro s t u w hs ht hu
  have hs' : { t with st := .idle }.st = .idle := rfl
  by_cases hop : opField w < 6#8
  · obtain ⟨t', ht', -, hafter, hframe, -⟩ := exec_command hs hop
    obtain rfl : t' = t := Host.Outcome.next.inj (ht'.symm.trans ht)
    obtain ⟨u', hu', -, -, hframe', hrest⟩ := exec_command hs' hop
    obtain rfl : u' = u := Host.Outcome.next.inj (hu'.symm.trans hu)
    simp only [hafter.sameFrame w] at hframe' hrest
    refine pb_ext fun j hj => ?_
    by_cases hwritten : j < 2 * (commandFrame w s.cfg.cid s.params).2
    · exact holdsFrame_entries hframe' hframe j hwritten
    · exact hrest j (by omega) hj
  · have hraise := (exec_decode_idle hs w).resolve_right fun h => hop h.1
    have hraise' := (exec_decode_idle hs' w).resolve_right fun h => hop h.1
    cases hraise.symm.trans ht
    cases hraise'.symm.trans hu
    rfl

/-- Settles O25: both states build the same frame, and a buffer that holds it has its entries. -/
theorem transmittedEntriesForgetThePast : Obligations.TransmittedEntriesForgetThePast := by
  intro s s' t t' w hs hs' hop hcid hparams ht ht'
  obtain ⟨u, hu, hlen, ⟨-, hstate⟩, hframe, -⟩ := exec_command hs hop
  obtain rfl : u = t := Host.Outcome.next.inj (hu.symm.trans ht)
  obtain ⟨u', hu', -, ⟨-, hstate'⟩, hframe', -⟩ := exec_command hs' hop
  obtain rfl : u' = t' := Host.Outcome.next.inj (hu'.symm.trans ht')
  rw [← hcid, ← hparams] at hframe' hstate'
  have hplen : u.plen = BitVec.ofNat 7 (2 * (commandFrame w s.cfg.cid s.params).2) := congrArg State.plen hstate
  have hplen' : u'.plen = BitVec.ofNat 7 (2 * (commandFrame w s.cfg.cid s.params).2) := congrArg State.plen hstate'
  refine ⟨hplen.trans hplen'.symm, fun j _ hj => ?_⟩
  rw [hplen, BitVec.toNat_ofNat] at hj
  exact holdsFrame_entries hframe' hframe j (by omega)

/-! ## BITCONV and RESCALE -/

/-- Settles O28: the bit of a number is its quotient's parity, and `bitconv_mod` drops what lies above the width. -/
theorem bitconvGivesTheBits : Obligations.BitconvGivesTheBits := by
  intro s v width
  have hbits : bitconv v.toNat width =
      (List.range width).map fun k => decide (v.toNat / 2 ^ (width - 1 - k) % 2 = 1) :=
    List.map_congr_left fun k _ => Nat.testBit_eq_decide_div_mod_eq
  have hfits : v.toNat % 2 ^ width < 2 ^ 32 := Nat.lt_of_le_of_lt (Nat.mod_le _ _) v.isLt
  refine ⟨rfl, ?_, ?_⟩
  · rw [← hbits]; rfl
  · change execBitconv _ width s = execBitconv v width s
    rw [execBitconv, execBitconv, BitVec.toNat_ofNat, Nat.mod_eq_of_lt hfits, bitconv_mod]

/-- The table of rule R164, level by level. -/
theorem rescale_table : ∀ level < 101, (level * 15 + 50) / 100 =
    ([4, 10, 17, 24, 30, 37, 44, 50, 57, 64, 70, 77, 84, 90, 97].filter (· ≤ level)).length := by decide

/-- Settles O30, mode by mode. -/
theorem rescaleFollowsItsTable : Obligations.RescaleFollowsItsTable := by
  intro s level
  refine ⟨_, rfl, fun hmode => ?_, fun hmode => ?_⟩
  · rw [hmode, rescale_reference]
  · rw [hmode, rescale_intended_toNat]
    exact ⟨rfl, fun hlevel => rescale_table _ (by omega)⟩

/-! ## The order of the field writes -/

/-- `f` writes the symbols `y` of the configuration to the offsets `lo` to `hi - 1`, and nothing else. -/
structure WritesSymbols (f : State → State) (lo hi : Nat) (y : Cfg → Nat → Sym) : Prop where
  same : ∀ s, SameButBuffer s (f s)
  inside : ∀ s i, lo ≤ i → i < hi → symAt (f s) i = some (y s.cfg i)
  outside : ∀ s j, j < 2 * lo ∨ 2 * hi ≤ j → entry (f s) j = entry s j

theorem WritesSymbols.cfg {f : State → State} {lo hi : Nat} {y : Cfg → Nat → Sym} (h : WritesSymbols f lo hi y)
    (s : State) : (f s).cfg = s.cfg := (congrArg State.cfg (h.same s)).trans rfl

/-- Writes to disjoint offsets commute (rules R78, R148). -/
theorem WritesSymbols.comm {f g : State → State} {a b c d : Nat} {y z : Cfg → Nat → Sym} (hf : WritesSymbols f a b y)
    (hg : WritesSymbols g c d z) (hbc : b ≤ c) (s : State) : f (g s) = g (f s) := by
  have hpb : (f (g s)).pb = (g (f s)).pb := by
    refine pb_ext fun j _ => ?_
    by_cases hjf : a ≤ j / 2 ∧ j / 2 < b
    · obtain ⟨h1, h2⟩ := hjf
      have hin := hf.inside (g s) (j / 2) h1 h2
      rw [hg.cfg] at hin
      rw [hg.outside (f s) j (by omega)]
      exact entry_eq_of_symAt j hin (hf.inside s (j / 2) h1 h2)
    · rw [hf.outside (g s) j (by omega)]
      by_cases hjg : c ≤ j / 2 ∧ j / 2 < d
      · obtain ⟨h1, h2⟩ := hjg
        have hin := hg.inside (f s) (j / 2) h1 h2
        rw [hf.cfg] at hin
        exact entry_eq_of_symAt j (hg.inside s (j / 2) h1 h2) hin
      · rw [hg.outside s j (by omega), hg.outside (f s) j (by omega), hf.outside s j (by omega)]
  have hfg : SameButBuffer s (f (g s)) := (hg.same s).trans (hf.same (g s))
  have hgf : SameButBuffer s (g (f s)) := (hf.same s).trans (hg.same (f s))
  rw [hfg, hgf, hpb]

theorem setCtrl_writes : WritesSymbols setCtrl 0 26 (fun cfg i => .bit (cfg.cid.toNat.testBit (25 - i))) where
  same := setCtrl_eq
  inside s i _ hi := by rw [symAt_setCtrl, if_pos hi]
  outside s j hj := entry_setCtrl s j (by omega)

theorem setBit_writes {offset : Nat} (v : Bool) (h : offset < 36) :
    WritesSymbols (setBit offset v) offset (offset + 1) (fun _ _ => .bit v) where
  same := fun s => sameButBuffer_setBit s offset v
  inside s i hlo hhi := by rw [symAt_setBit _ _ _ _ h, if_pos (by omega)]
  outside s j hj := entry_setBit offset v s j h (by omega) (by omega)

theorem setDimSel_writes : WritesSymbols setDimSel 27 28 (fun _ _ => .dimSel) where
  same := sameButBuffer_setDimSel
  inside s i hlo hhi := by rw [symAt_setDimSel, if_pos (by omega)]
  outside s j hj := entry_setDimSel s j (by omega) (by omega)

theorem setDev_writes (address : Byte) :
    WritesSymbols (setDev address) 28 32 (fun _ i => .bit (address.toNat.testBit (31 - i))) where
  same := fun s => setDev_eq s address
  inside s i hlo hhi := by rw [symAt_setDev, if_pos ⟨hlo, hhi⟩]
  outside s j hj := entry_setDev address s j (by omega)

theorem setDim_writes (level4 : Byte) :
    WritesSymbols (setDim level4) 32 36 (fun _ i => .bit (level4.toNat.testBit (35 - i))) where
  same := fun s => setDim_eq s level4
  inside s i hlo hhi := by rw [symAt_setDim, if_pos ⟨hlo, hhi⟩]
  outside s j hj := entry_setField _ _ _ (by simp [dimOffset]) j (by simp [dimOffset]; omega)

/-- The first offset of each of the five fields of a command, and the end of the last (rule R90). -/
def fieldStart : Nat → Nat
  | 0 => 0
  | 1 => 26
  | 2 => 27
  | 3 => 28
  | 4 => 32
  | _ => 36

/-- The five field writes of a command, in the order of their offsets (rule R148). -/
abbrev fieldWrites (g : Bool) (flag : Instr) (address level4 : Byte) : List Instr :=
  [.setctrl, .setbit 26 g, flag, .setdev address, .setdim level4]

/-- Each field write is a write to the offsets of its field. -/
theorem fieldWrites_writes (g c : Bool) (address level4 : Byte) {flag : Instr}
    (hflag : flag ∈ [Instr.setbit 27 c, .setdimsel]) (k : Nat) (hk : k < 5) :
    ∃ f y, (∀ s, exec (fieldWrites g flag address level4)[k] s = .next (f s)) ∧
      WritesSymbols f (fieldStart k) (fieldStart (k + 1)) y := by
  match k, hk with
  | 0, _ => exact ⟨_, _, fun _ => rfl, setCtrl_writes⟩
  | 1, _ => exact ⟨_, _, fun _ => rfl, setBit_writes g (by decide)⟩
  | 2, _ =>
    obtain rfl | rfl : flag = .setbit 27 c ∨ flag = .setdimsel := by simpa using hflag
    · exact ⟨_, _, fun _ => rfl, setBit_writes c (by decide)⟩
    · exact ⟨_, _, fun _ => rfl, setDimSel_writes⟩
  | 3, _ => exact ⟨_, _, fun _ => rfl, setDev_writes address⟩
  | 4, _ => exact ⟨_, _, fun _ => rfl, setDim_writes level4⟩

theorem fieldStart_le : ∀ k < 5, ∀ l < 5, k < l → fieldStart (k + 1) ≤ fieldStart l := by decide

/-- Settles O36: two different field writes write disjoint offsets. -/
theorem fieldWritesCommute : Obligations.FieldWritesCommute := by
  intro s g c address level4 flag i j hflag hi hj hij
  obtain ⟨k, hk, rfl⟩ := List.mem_iff_getElem.1 hi
  obtain ⟨l, hl, rfl⟩ := List.mem_iff_getElem.1 hj
  obtain ⟨f, y, hexec, hf⟩ := fieldWrites_writes g c address level4 hflag k hk
  obtain ⟨f', y', hexec', hf'⟩ := fieldWrites_writes g c address level4 hflag l hl
  have hcomm : f (f' s) = f' (f s) := by
    obtain h | rfl | h := Nat.lt_trichotomy k l
    · exact hf.comm hf' (fieldStart_le k hk l hl h) s
    · exact absurd rfl hij
    · exact (hf'.comm hf (fieldStart_le l hl k hk h) s).symm
  exact ⟨f s, f' s, f' (f s), hexec s, hexec' s, hexec' (f s), (hexec (f' s)).trans (congrArg _ hcomm)⟩

end Sys2Proof.Machine
end

section
/-! REPETITION and TRANSMIT run whole (rules R192, R193, R195, R196, R205). -/

namespace Sys2Proof.Machine

open Sys2Proof

/-! ## The trace of a repetition -/

/-- `Rep(P)` of rule R205 without its yield: what a repetition has driven when it asks for the yield. -/
def untilYield (ledEnabled : Bool) (ds : List Micros) : List Event :=
  [.enter] ++ (if ledEnabled then [.led true] else []) ++ (latchTrace ++ ds.flatMap pulseTrace ++ latchTrace) ++
    (if ledEnabled then [.led false] else []) ++ [.leave] ++ [.wait 9500#16]

theorem repTrace_eq (ledEnabled : Bool) (ds : List Micros) :
    repTrace ledEnabled ds = untilYield ledEnabled ds ++ [.yield] := by
  simp [repTrace, untilYield]

theorem repTrace_dropLast (ledEnabled : Bool) (ds : List Micros) :
    (repTrace ledEnabled ds).dropLast = untilYield ledEnabled ds := by
  rw [repTrace_eq, List.dropLast_concat]

/-- Outside its pulses a repetition waits for the gap alone (rule R242). -/
theorem waitSum_untilYield (ledEnabled : Bool) (ds : List Micros) :
    waitSum (untilYield ledEnabled ds) = waitSum (latchTrace ++ ds.flatMap pulseTrace ++ latchTrace) + 9500 := by
  cases ledEnabled <;> simp [untilYield, waitSum, Nat.add_assoc]

@[simp] theorem transmitTrace_zero (ledEnabled : Bool) (ds : List Micros) : transmitTrace ledEnabled ds 0 = [] := rfl

theorem transmitTrace_one (ledEnabled : Bool) (ds : List Micros) :
    transmitTrace ledEnabled ds 1 = repTrace ledEnabled ds := by simp [transmitTrace]

theorem transmitTrace_add (ledEnabled : Bool) (ds : List Micros) (m n : Nat) :
    transmitTrace ledEnabled ds (m + n) = transmitTrace ledEnabled ds m ++ transmitTrace ledEnabled ds n := by
  rw [transmitTrace, List.replicate_add, List.flatten_append]
  rfl

/-! ## One repetition -/

/-- The end of a repetition: its yield, handed back or not (rules R192, R196). -/
def askYield (p : Nat) (v : State) : Progress :=
  match yieldTurn v with
  | none => .waiting (setSeq v.seq.rep .yield (BitVec.ofNat 7 p) v)
  | some w => .done (setSeq w.seq.rep .lockReq 0#7 w)

theorem askYield_withheld {p : Nat} {v : State} (h : yieldTurn v = none) :
    askYield p v = .waiting (setSeq v.seq.rep .yield (BitVec.ofNat 7 p) v) := by rw [askYield, h]

theorem askYield_answered {p : Nat} {v w : State} (h : yieldTurn v = some w) :
    askYield p v = .done (setSeq w.seq.rep .lockReq 0#7 w) := by rw [askYield, h]

theorem repetitionRun_withheld {p : Nat} {s : State} (h : enter s = none) :
    repetitionRun p s = .ok (.waiting (setSeq s.seq.rep .lockReq 0#7 s)) := by rw [repetitionRun, h]

/-- A repetition whose lock is granted: the pulses between two latches, the close and the yield (rule R192). -/
theorem repetitionRun_granted {p : Nat} {s t : State} (h : enter s = some t) :
    repetitionRun p s = (dataPulses p 0 (latchPulse (indicator true t))).map
      (fun u => askYield p (closeRepetition (latchPulse u))) := by
  rw [repetitionRun, h]
  dsimp only
  cases dataPulses p 0 (latchPulse (indicator true t)) with
  | error f => rfl
  | ok u =>
    dsimp only [Except.map]
    cases hy : yieldTurn (closeRepetition (latchPulse u)) with
    | none => rw [askYield_withheld hy]
    | some w => rw [askYield_answered hy]

/-- The latches around the data pulses, with every entry written: the pin ends low even if there is no pulse. -/
theorem latchedPulses_drove {p : Nat} {s : State} (h : ∀ j < p, (entry s j).isSome = true) :
    ∃ u, dataPulses p 0 (latchPulse s) = .ok u ∧
      Drove s (latchPulse u) (latchTrace ++ (lowPeriods s p).flatMap pulseTrace ++ latchTrace) := by
  obtain rfl | hp := Nat.eq_zero_or_pos p
  · exact ⟨_, rfl, (latchPulse_drove s).trans (latchPulse_drove _)⟩
  · have hpb : (latchPulse s).pb = s.pb := latchPulse_pb s
    obtain ⟨u, hu, hdrove⟩ := dataPulses_drove (s := latchPulse s) (j := 0) hp (by
      intro k hk; rw [Nat.zero_add, entry_congr hpb]; exact h k hk)
    rw [lowFrom_congr hpb, lowFrom_zero] at hdrove
    exact ⟨u, hu, ((latchPulse_drove s).trans hdrove).trans (latchPulse_drove u)⟩

/-- The close of a repetition: the indicator lowered, the lock released, the gap at least (rules R192, R198). -/
theorem closeRepetition_eq (s : State) : closeRepetition s = { s with
    led := if indicatorEnabled s then false else s.led
    lock := .unlocked
    wave := s.wave ++ (if indicatorEnabled s then [.led false] else []) ++ [.leave] ++ [.wait 9500#16]
    now := s.now + 9500 + Config.overshoot s.draws, draws := s.draws + 1 } := by
  rw [closeRepetition, wait_unlocked (s := leave (indicator false s)) rfl]
  cases hen : indicatorEnabled s <;> simp [indicator, hen, leave, emit, driveLed, tGap]

/-- `v` is `s` after a repetition has driven the low periods `ds` and before its yield. -/
abbrev DroveRepetition (s v : State) (ds : List Micros) : Prop :=
  v = { s with
    lockAnswers := spend 1 s.lockAnswers
    lock := .unlocked, tx := false, led := if indicatorEnabled s then false else s.led
    wave := s.wave ++ untilYield (indicatorEnabled s) ds
    now := v.now, draws := v.draws } ∧
  s.now + waitSum (untilYield (indicatorEnabled s) ds) ≤ v.now

/-- A repetition whose lock is granted and whose entries are written comes to its yield. -/
theorem repetitionRun_drove {p : Nat} {s : State} (ha : enough 1 s.lockAnswers = true)
    (hw : ∀ j < p, (entry s j).isSome = true) :
    ∃ v, repetitionRun p s = .ok (askYield p v) ∧ DroveRepetition s v (lowPeriods s p) := by
  have hpb : (indicator true (granted s)).pb = s.pb := by simp
  obtain ⟨u, hu, hdrove⟩ := latchedPulses_drove (p := p) (s := indicator true (granted s)) (by
    intro j hj; rw [entry_congr hpb]; exact hw j hj)
  rw [lowPeriods_congr hpb] at hdrove
  obtain ⟨now, draws, hstate, hnow, -⟩ := hdrove.elapsed
  refine ⟨closeRepetition (latchPulse u), ?_, ?_⟩
  · rw [repetitionRun_granted (enter_granted ha), hu]; rfl
  · rw [hstate, closeRepetition_eq]
    refine ⟨?_, ?_⟩
    · by_cases hpin : s.cfg.ledPin = 0#8
      · simp [indicator_eq, indicatorEnabled, hpin, granted, emit, untilYield]
      · simp [indicator_eq, indicatorEnabled, hpin, granted, emit, untilYield]
    · rw [waitSum_untilYield]
      simp only [indicator_now, granted_now] at hnow
      dsimp only
      generalize waitSum (latchTrace ++ _) = driven at hnow ⊢
      omega

end Sys2Proof.Machine
end

section
/-! REPETITION and TRANSMIT, answered and withheld (rules R192, R193, R195, R196, R205). -/

namespace Sys2Proof.Machine

open Sys2Proof

/-! ## Repetitions that are answered -/

/-- `t` is `s` after `n` whole repetitions over the low periods `ds`: counted in `REP`, the lock released, the pins low,
an answer of each kind spent on each, and at least the waits passed. -/
abbrev Repeated (s t : State) (ds : List Micros) (n : Nat) : Prop :=
  t = { s with
    lockAnswers := spend n s.lockAnswers, yieldAnswers := spend n s.yieldAnswers
    lock := if n = 0 then s.lock else .unlocked
    tx := if n = 0 then s.tx else false
    led := if n ≠ 0 ∧ indicatorEnabled s = true then false else s.led
    seq := { rep := s.seq.rep + BitVec.ofNat 8 n, phase := .lockReq, pidx := 0#7 }
    wave := s.wave ++ transmitTrace (indicatorEnabled s) ds n
    now := t.now, draws := t.draws } ∧
  s.now + waitSum (transmitTrace (indicatorEnabled s) ds n) ≤ t.now

theorem Repeated.trans {s t u : State} {ds : List Micros} {m n : Nat} (h : Repeated s t ds m) (h' : Repeated t u ds n) :
    Repeated s u ds (m + n) := by
  obtain ⟨hstate, hnow⟩ := h
  obtain ⟨hstate', hnow'⟩ := h'
  have hen : indicatorEnabled t = indicatorEnabled s := by rw [hstate]; rfl
  rw [hen] at hstate' hnow'
  refine ⟨?_, by rw [transmitTrace_add, waitSum_append]; omega⟩
  generalize u.now = now at hstate' ⊢
  generalize u.draws = draws at hstate' ⊢
  rw [hstate', hstate]
  by_cases hm : m = 0 <;> by_cases hn : n = 0 <;>
    simp [hm, hn, transmitTrace_add, BitVec.ofNat_add, BitVec.add_assoc]

/-- A repetition that is answered, as REPETITION gives it (rule R192). -/
theorem repetitionRun_done {p : Nat} {s : State} (hl : enough 1 s.lockAnswers = true)
    (hy : enough 1 s.yieldAnswers = true) (hw : ∀ j < p, (entry s j).isSome = true) :
    ∃ now draws, repetitionRun p s = .ok (.done { s with
        lockAnswers := spend 1 s.lockAnswers, yieldAnswers := spend 1 s.yieldAnswers
        lock := .unlocked, tx := false, led := if indicatorEnabled s then false else s.led
        seq := { s.seq with phase := .lockReq, pidx := 0#7 }
        wave := s.wave ++ repTrace (indicatorEnabled s) (lowPeriods s p)
        now := now, draws := draws }) ∧
      s.now + waitSum (repTrace (indicatorEnabled s) (lowPeriods s p)) ≤ now := by
  obtain ⟨v, hrun, hstate, hnow⟩ := repetitionRun_drove hl hw
  have hyv : enough 1 v.yieldAnswers = true := by rw [hstate]; exact hy
  refine ⟨v.now + Config.yieldTime v.draws, v.draws + 1, ?_, ?_⟩
  · rw [hrun, askYield_answered (yieldTurn_answered hyv)]
    generalize v.now = now at hstate ⊢
    generalize v.draws = draws at hstate ⊢
    rw [hstate]
    simp [setSeq, yielded, emit, repTrace_eq]
  · rw [repTrace_eq, waitSum_append]
    exact Nat.le_trans hnow (Nat.le_add_right _ _)

/-- Settles O39: `repetitionRun_done`, as an instruction's outcome. -/
theorem repetitionAppendsItsTrace : Obligations.RepetitionAppendsItsTrace := by
  intro s p hl hy hw
  obtain ⟨now, draws, hrun, hnow⟩ := repetitionRun_done hl hy hw
  exact ⟨now, draws, congrArg settleProgress hrun, hnow⟩

/-- One repetition, counted (rule R193). -/
theorem repetitionRun_repeated {p : Nat} {s : State} (hl : enough 1 s.lockAnswers = true)
    (hy : enough 1 s.yieldAnswers = true) (hw : ∀ j < p, (entry s j).isSome = true) :
    ∃ t, repetitionRun p s = .ok (.done t) ∧
      Repeated s (setSeq (t.seq.rep + 1#8) .lockReq 0#7 t) (lowPeriods s p) 1 := by
  obtain ⟨now, draws, hrun, hnow⟩ := repetitionRun_done hl hy hw
  refine ⟨_, hrun, ?_, ?_⟩
  · simp [setSeq, transmitTrace_one]
  · rw [transmitTrace_one]; exact hnow

/-- Repetitions that are answered, from the start of one (rule R193). -/
theorem repetitions_done {p n : Nat} {s : State} {r : Byte}
    (hseq : s.seq = { rep := r, phase := .lockReq, pidx := 0#7 }) (hl : enough n s.lockAnswers = true) (hy : enough n s.yieldAnswers = true)
    (hw : ∀ j < p, (entry s j).isSome = true) :
    ∃ t, repetitions p n s = .ok (.done t) ∧ Repeated s t (lowPeriods s p) n := by
  induction n generalizing s r with
  | zero => exact ⟨s, rfl, by simp [State.ext_iff, hseq], by simp [waitSum]⟩
  | succ n ih =>
    rw [Nat.add_comm] at hl hy
    obtain ⟨hl1, hln⟩ := (enough_add 1 n s.lockAnswers).1 hl
    obtain ⟨hy1, hyn⟩ := (enough_add 1 n s.yieldAnswers).1 hy
    obtain ⟨t, hrun, hone⟩ := repetitionRun_repeated hl1 hy1 hw
    rw [repetitions, hrun]
    dsimp only
    generalize setSeq (t.seq.rep + 1#8) .lockReq 0#7 t = s' at hone ⊢
    obtain ⟨hstate, -⟩ := id hone
    have hpb : s'.pb = s.pb := by rw [hstate]
    obtain ⟨u, hu, hrest⟩ := ih (s := s') (congrArg State.seq hstate) (by rw [hstate]; exact hln)
      (by rw [hstate]; exact hyn) (fun j hj => by rw [entry_congr hpb]; exact hw j hj)
    rw [lowPeriods_congr hpb] at hrest
    rw [Nat.add_comm]
    exact ⟨u, hu, hone.trans hrest⟩

/-- `m + n` repetitions are `m`, and then `n` if those are done (rule R193). -/
theorem repetitions_add {p m n : Nat} {s t : State} (h : repetitions p m s = .ok (.done t)) :
    repetitions p (m + n) s = repetitions p n t := by
  induction m generalizing s with
  | zero =>
    cases h
    rw [Nat.zero_add]
  | succ m ih =>
    rw [repetitions] at h
    rw [Nat.succ_add, repetitions]
    split at h
    next => cases h
    next => cases h
    next u hu => exact ih h

/-! ## TRANSMIT -/

/-- The end of TRANSMIT run whole: the core is IDLE at the start of the sequencer (rule R160, log entry 10). -/
def finishTransmit (r : Except Fault Progress) : Except Fault Progress :=
  match r with
  | .error f => .error f
  | .ok (.waiting t) => .ok (.waiting t)
  | .ok (.done t) => .ok (.done { t with seq := Seq.start, st := .idle })

theorem transmitRun_eq (p : Nat) (s : State) :
    transmitRun p s = finishTransmit (repetitions p s.cfg.txCount.toNat (setSeq 0#8 .lockReq 0#7 s)) := by
  rw [transmitRun]
  cases repetitions p s.cfg.txCount.toNat (setSeq 0#8 .lockReq 0#7 s) with
  | error f => rfl
  | ok r => cases r <;> rfl

theorem exec_transmit (p : Fin 73) (s : State) : exec (.transmit p) s =
    settleProgress (finishTransmit (repetitions p.val s.cfg.txCount.toNat (setSeq 0#8 .lockReq 0#7 s))) :=
  congrArg settleProgress (transmitRun_eq p.val s)

@[simp] theorem indicatorEnabled_setSeq (rep : Byte) (phase : Phase) (pidx : PulseIndex) (s : State) :
    indicatorEnabled (setSeq rep phase pidx s) = indicatorEnabled s := rfl

@[simp] theorem lowPeriods_setSeq (rep : Byte) (phase : Phase) (pidx : PulseIndex) (s : State) (n : Nat) :
    lowPeriods (setSeq rep phase pidx s) n = lowPeriods s n := rfl

/-- When as many requests are answered as there are answers, none is left. -/
@[simp] theorem spend_all (k : Nat) : spend k (some k) = some 0 := congrArg some (Nat.sub_self k)

theorem toNat_eq_zero_iff (n : Byte) : n.toNat = 0 ↔ n = 0#8 := by
  rw [← BitVec.toNat_inj]; rfl

/-- Settles O40: all the repetitions are done, and `Repeated` says what they leave. -/
theorem transmitAppendsItsTrace : Obligations.TransmitAppendsItsTrace := by
  intro s p hl hy hw
  obtain ⟨t, hrun, hstate, hnow⟩ := repetitions_done (s := setSeq 0#8 .lockReq 0#7 s) rfl hl hy hw
  refine ⟨t.now, t.draws, ?_, hnow⟩
  rw [exec_transmit, hrun]
  refine congrArg Host.Outcome.next ?_
  generalize t.now = now at hstate ⊢
  generalize t.draws = draws at hstate ⊢
  rw [hstate]
  simp only [toNat_eq_zero_iff, ne_eq]
  rfl

/-- Settles O41: the first lock request is not answered, and nothing comes before it. -/
theorem noGrantNoPinEvent : Obligations.NoGrantNoPinEvent := by
  intro s p hnone
  refine ⟨congrArg settleProgress (repetitionRun_withheld (enter_withheld hnone)), fun hcount => ?_⟩
  obtain ⟨n, hn⟩ := Nat.exists_eq_succ_of_ne_zero (mt (toNat_eq_zero_iff _).1 hcount)
  have hstart : enter (setSeq 0#8 .lockReq 0#7 s) = none := enter_withheld hnone
  rw [exec_transmit, hn, repetitions, repetitionRun_withheld hstart]
  rfl

/-- Settles O54: `k` repetitions are done, and the next one stands at the request that is withheld. -/
theorem transmitStandsAtTheWithheldRequest : Obligations.TransmitStandsAtTheWithheldRequest := by
  intro s p k hk hw
  obtain ⟨n, hn⟩ : ∃ n, s.cfg.txCount.toNat = k + (n + 1) := ⟨s.cfg.txCount.toNat - k - 1, by omega⟩
  have hdone := repetitions_done (p := p.val) (n := k) (s := setSeq 0#8 .lockReq 0#7 s) rfl
  constructor
  · intro hlock hyield
    obtain ⟨t, hrun, hstate, -⟩ := hdone (by simp [hlock, enough]) hyield hw
    have hnone : enter t = none := enter_withheld (by rw [hstate]; simp [hlock])
    refine ⟨t.now, t.draws, ?_⟩
    rw [exec_transmit, hn, repetitions_add hrun, repetitions, repetitionRun_withheld hnone]
    refine congrArg Host.Outcome.next ?_
    generalize t.now = now at hstate ⊢
    generalize t.draws = draws at hstate ⊢
    rw [hstate]
    cases hled : indicatorEnabled s <;> simp [State.ext_iff, hlock, hled]
  · intro hyield hlock
    obtain ⟨hlockk, hlock1⟩ := (enough_add k 1 s.lockAnswers).1 hlock
    obtain ⟨t, hrun, hstate, -⟩ := hdone hlockk (by simp [hyield, enough]) hw
    have hpb : t.pb = s.pb := by rw [hstate]; rfl
    have hen : indicatorEnabled t = indicatorEnabled s := by rw [hstate]; rfl
    have hwt : ∀ j < p.val, (entry t j).isSome = true := by
      intro j hj
      rw [entry_congr hpb]
      exact hw j hj
    obtain ⟨v, hrunv, hstatev, -⟩ := repetitionRun_drove (s := t) (by rw [hstate]; exact hlock1) hwt
    have hnone : yieldTurn v = none := yieldTurn_withheld (by rw [hstatev, hstate]; simp [hyield])
    refine ⟨v.now, v.draws, ?_⟩
    rw [exec_transmit, hn, repetitions_add hrun, repetitions, hrunv, askYield_withheld hnone]
    refine congrArg Host.Outcome.next ?_
    generalize v.now = now at hstatev ⊢
    generalize v.draws = draws at hstatev ⊢
    rw [hen, lowPeriods_congr hpb] at hstatev
    rw [hstatev, hstate]
    cases hled : indicatorEnabled s <;> simp [State.ext_iff, hyield, hled, repTrace_dropLast]

end Sys2Proof.Machine
end

section
/-! What a transmission's trace counts: its events, its rising edges and its waits (rules R200, R205). -/

namespace Sys2Proof.Machine

open Sys2Proof

/-! ## Events and edges -/

theorem pulses_length (ds : List Micros) : (ds.flatMap pulseTrace).length = 4 * ds.length := by
  induction ds with
  | nil => rfl
  | cons d ds ih => rw [List.flatMap_cons, List.length_append, ih, List.length_cons, pulseTrace]; simp; omega

theorem repTrace_length (ledEnabled : Bool) (ds : List Micros) :
    (repTrace ledEnabled ds).length = if ledEnabled then 4 * ds.length + 14 else 4 * ds.length + 12 := by
  cases ledEnabled <;> simp only [repTrace, latchTrace, List.length_append, pulses_length] <;> simp <;> omega

theorem lowPeriods_length (s : State) (n : Nat) : (lowPeriods s n).length = n := by simp [lowPeriods]

/-- Settles O51: the trace that REPETITION appends is `Rep(P)`, whose events `repTrace_length` counts. -/
theorem repetitionEventCount : Obligations.RepetitionEventCount := by
  intro s p hl hy hw
  obtain ⟨now, draws, hrun, -⟩ := repetitionAppendsItsTrace s p hl hy hw
  refine ⟨_, hrun, ?_⟩
  rw [List.length_append, repTrace_length, lowPeriods_length]

theorem pulses_edges (ds : List Micros) : (ds.flatMap pulseTrace).count (.tx true) = ds.length := by
  induction ds with
  | nil => rfl
  | cons d ds ih => rw [List.flatMap_cons, List.count_append, ih, List.length_cons, pulseTrace]; simp; omega

/-- A repetition has a rising edge of TX for each of its latches and each of its data pulses (rule R200). -/
theorem repTrace_edges (ledEnabled : Bool) (ds : List Micros) :
    (repTrace ledEnabled ds).count (.tx true) = ds.length + 2 := by
  cases ledEnabled <;> simp only [repTrace, latchTrace, List.count_append, pulses_edges] <;> simp <;> omega

theorem transmitTrace_edges (ledEnabled : Bool) (ds : List Micros) (n : Nat) :
    (transmitTrace ledEnabled ds n).count (.tx true) = n * (ds.length + 2) := by
  induction n with
  | zero => simp
  | succ n ih => rw [transmitTrace_add, List.count_append, ih, transmitTrace_one, repTrace_edges, Nat.succ_mul]

/-! ## Waits -/

/-- The waits of a repetition: its two latches, its data pulses and the gap (rule R200). -/
theorem repTrace_waits (ledEnabled : Bool) (ds : List Micros) :
    waitSum (repTrace ledEnabled ds) = waitSum (ds.flatMap pulseTrace) + 15410 := by
  rw [repTrace_eq, waitSum_append, waitSum_untilYield, waitSum_append, waitSum_append, waitSum_latchTrace]
  simp only [waitSum]
  omega

theorem transmitTrace_waits (ledEnabled : Bool) (ds : List Micros) (n : Nat) :
    waitSum (transmitTrace ledEnabled ds n) = n * (waitSum (ds.flatMap pulseTrace) + 15410) := by
  induction n with
  | zero => simp [waitSum]
  | succ n ih => rw [transmitTrace_add, waitSum_append, ih, transmitTrace_one, repTrace_waits, Nat.succ_mul]

/-- How long the two data pulses of a symbol last, in µs (rules R92, R95). -/
def symTime : Sym → Nat
  | .bit _ => 2060
  | .dimSel => 1100
  | .never => 3020

/-- How long the first `n` data pulses of the buffer last, in µs. -/
def pulseTime (s : State) (n : Nat) : Nat := waitSum ((lowPeriods s n).flatMap pulseTrace)

theorem pulseTime_succ (s : State) (n : Nat) :
    pulseTime s (n + 1) = pulseTime s n + (270 + ((entry s n).getD 0#16).toNat) := by
  rw [pulseTime, lowPeriods, List.range_succ, List.map_append, List.flatMap_append, waitSum_append]
  rfl

/-- The two data pulses of a pair that holds a symbol last as long as the symbol. -/
theorem pulseTime_pair {s : State} {i : Nat} {y : Sym} (h : symAt s i = some y) :
    pulseTime s (2 * (i + 1)) = pulseTime s (2 * i) + symTime y := by
  rw [show 2 * (i + 1) = 2 * i + 1 + 1 from rfl, pulseTime_succ, pulseTime_succ]
  cases y with
  | bit v =>
    obtain ⟨h0, h1⟩ := (pairSym_eq_bit _ _ v).1 h
    rw [h0, h1]
    cases v <;> simp [bitPair, tShort, tLong, symTime]
  | dimSel =>
    obtain ⟨h0, h1⟩ := (pairSym_eq_dimSel _ _).1 h
    rw [h0, h1]
    simp [tShort, symTime]
  | never =>
    obtain ⟨h0, h1⟩ := (pairSym_eq_never _ _).1 h
    rw [h0, h1]
    simp [tLong, symTime]

/-- The data pulses of a frame last as long as its symbols together. -/
theorem pulseTime_frame {s : State} {f : Nat → Sym} {len : Nat} (h : HoldsFrame s f len) :
    pulseTime s (2 * len) = ((List.range len).map fun i => symTime (f i)).sum := by
  induction len with
  | zero => rfl
  | succ n ih =>
    rw [pulseTime_pair (h n (Nat.lt_succ_self n)), ih fun i hi => h i (Nat.lt_succ_of_lt hi), List.range_succ]
    simp

/-- The 64 data pulses of an `F32` frame (rule R200). -/
theorem pulseTime_f32 {s : State} {f : Nat → Bool} (h : HoldsFrame s (fun i => .bit (f i)) 32) :
    pulseTime s 64 = 65920 := by
  refine (pulseTime_frame h).trans ?_
  simp only [symTime]
  decide

/-- The 72 data pulses of an `F36` frame (rule R200). -/
theorem pulseTime_f36 {s : State} {f : Nat → Bool}
    (h : HoldsFrame s (fun i => if i = 27 then .dimSel else .bit (f i)) 36) :
    pulseTime s 72 = 73200 := by
  refine (pulseTime_frame h).trans ?_
  have hsym : ∀ i, symTime (if i = 27 then .dimSel else .bit (f i)) = if i = 27 then 1100 else 2060 := by
    intro i; split <;> rfl
  simp only [hsym]
  decide

/-- The clock and the trace of a TRANSMIT that is answered, by how long its data pulses last (rule R200). -/
theorem transmit_counts {s : State} {p : Fin 73} (hl : enough s.cfg.txCount.toNat s.lockAnswers = true)
    (hy : enough s.cfg.txCount.toNat s.yieldAnswers = true) (hw : ∀ j < p.val, (entry s j).isSome = true) :
    ∃ t es, exec (.transmit p) s = .next t ∧ t.wave = s.wave ++ es ∧
      waitSum es = s.cfg.txCount.toNat * (pulseTime s p.val + 15410) ∧
      s.now + s.cfg.txCount.toNat * (pulseTime s p.val + 15410) ≤ t.now ∧
      es.count (.tx true) = s.cfg.txCount.toNat * (p.val + 2) := by
  obtain ⟨now, draws, hrun, hnow⟩ := transmitAppendsItsTrace s p hl hy hw
  refine ⟨_, _, hrun, rfl, transmitTrace_waits _ _ _, ?_, ?_⟩
  · rw [transmitTrace_waits] at hnow
    exact hnow
  · rw [transmitTrace_edges, lowPeriods_length]

/-- Settles O50: `transmit_counts`, with the time of the data pulses of either frame. -/
theorem transmissionDurations : Obligations.TransmissionDurations := by
  intro s f hl hy
  refine ⟨fun h => ?_, fun h => ?_⟩
  · have hcounts := transmit_counts (p := 64) hl hy (holdsFrame_written h)
    rw [show ((64 : Fin 73) : Nat) = 64 from rfl, pulseTime_f32 h] at hcounts
    exact hcounts
  · have hcounts := transmit_counts (p := 72) hl hy (holdsFrame_written h)
    rw [show ((72 : Fin 73) : Nat) = 72 from rfl, pulseTime_f36 h] at hcounts
    exact hcounts

end Sys2Proof.Machine
end

section
/-! The step table refines the transmission run whole (rules R193, R199), and a command runs to its end (rule R269). -/

namespace Sys2Proof.Machine

open Sys2Proof

/-! ## The rows of a state in a given position -/

theorem run_step {s t : State} (h : step s = .next t) (k : Nat) : runSteps (k + 1) s = runSteps k t := by
  rw [run_succ, h, andThen_next]

/-- The phase that follows once `j` data pulses are done: the next pulse, or the post-latch after the last. -/
def pulsePhase (j plen : PulseIndex) : Phase := if j = plen then .postHi else .pulseHi

section
variable (r : Byte) (i : PulseIndex) {x : State}

/-! Drives, waits and the platform's answers do not read the sequencer's position. -/

theorem wait_setSeq (phase : Phase) (d : Delay) : wait d (setSeq r phase i x) = setSeq r phase i (wait d x) := by
  cases h : x.lock <;> simp [wait, setSeq, emit, h]

theorem driveWait_setSeq (phase : Phase) (b : Bool) (d : Delay) :
    wait d (driveTx b (setSeq r phase i x)) = setSeq r phase i (wait d (driveTx b x)) :=
  wait_setSeq r i (x := driveTx b x) phase d

theorem indicator_setSeq (phase : Phase) (b : Bool) :
    indicator b (setSeq r phase i x) = setSeq r phase i (indicator b x) := by
  rw [indicator_eq, indicator_eq]; rfl

theorem enter_setSeq (phase : Phase) : enter (setSeq r phase i x) = (enter x).map (setSeq r phase i) := by
  unfold enter
  rw [apply_ite (Option.map (setSeq r phase i))]
  rfl

theorem yieldTurn_setSeq (phase : Phase) : yieldTurn (setSeq r phase i x) = (yieldTurn x).map (setSeq r phase i) := by
  unfold yieldTurn
  rw [apply_ite (Option.map (setSeq r phase i))]
  rfl

variable (hst : x.st = .transmitting)
include hst

theorem step_ledOn : step (setSeq r .ledOn i x) = .next (setSeq r .preHi i (indicator true x)) := by
  rw [step_transmitting (s := setSeq r .ledOn i x) hst]
  change Host.Outcome.next (goPhase .preHi (indicator true (setSeq r .ledOn i x))) = _
  rw [indicator_setSeq]; rfl

theorem step_preHi : step (setSeq r .preHi i x) = .next (setSeq r .preLo i (wait tLatchHigh (driveTx true x))) := by
  rw [step_transmitting (s := setSeq r .preHi i x) hst]
  change Host.Outcome.next (goPhase .preLo (wait tLatchHigh (driveTx true (setSeq r .preHi i x)))) = _
  rw [driveWait_setSeq]; rfl

theorem step_preLo : step (setSeq r .preLo i x) =
    .next (setSeq r (pulsePhase 0#7 x.plen) 0#7 (wait tLatchLow (driveTx false x))) := by
  rw [step_transmitting (s := setSeq r .preLo i x) hst]
  change Host.Outcome.next (setSeq r (if x.plen = 0#7 then .postHi else .pulseHi) 0#7
    (wait tLatchLow (driveTx false (setSeq r .preLo i x)))) = _
  rw [driveWait_setSeq, pulsePhase]
  simp only [eq_comm]
  rfl

theorem step_pulseHi : step (setSeq r .pulseHi i x) = .next (setSeq r .pulseLo i (pulseHigh x)) := by
  rw [step_transmitting (s := setSeq r .pulseHi i x) hst]
  change Host.Outcome.next (goPhase .pulseLo (wait tHigh (driveTx true (setSeq r .pulseHi i x)))) = _
  rw [driveWait_setSeq]; rfl

theorem step_pulseLo_ok {d : Micros} (hr : pbRead i.toNat x = .ok d) : step (setSeq r .pulseLo i x) =
    .next (setSeq r (pulsePhase (i + 1#7) x.plen) (i + 1#7) (pulseLow d x)) := by
  have hread : pbRead i.toNat (setSeq r .pulseLo i x) = .ok d := hr
  simp only [step_transmitting (s := setSeq r .pulseLo i x) hst, sequencerStep, setSeq_seq, hread, pulseLoStep,
    pulseLow, driveWait_setSeq]
  rw [setSeq_plen, wait_plen, driveTx_plen]
  rfl

theorem step_pulseLo_error {f : Fault} (hr : pbRead i.toNat x = .error f) :
    step (setSeq r .pulseLo i x) = .fault f := by
  have hread : pbRead i.toNat (setSeq r .pulseLo i x) = .error f := hr
  simp only [step_transmitting (s := setSeq r .pulseLo i x) hst, sequencerStep, setSeq_seq, hread]

theorem step_postHi : step (setSeq r .postHi i x) = .next (setSeq r .postLo i (wait tLatchHigh (driveTx true x))) := by
  rw [step_transmitting (s := setSeq r .postHi i x) hst]
  change Host.Outcome.next (goPhase .postLo (wait tLatchHigh (driveTx true (setSeq r .postHi i x)))) = _
  rw [driveWait_setSeq]; rfl

theorem step_postLo : step (setSeq r .postLo i x) = .next (setSeq r .ledOff i (wait tLatchLow (driveTx false x))) := by
  rw [step_transmitting (s := setSeq r .postLo i x) hst]
  change Host.Outcome.next (goPhase .ledOff (wait tLatchLow (driveTx false (setSeq r .postLo i x)))) = _
  rw [driveWait_setSeq]; rfl

theorem step_ledOff : step (setSeq r .ledOff i x) = .next (setSeq r .unlock i (indicator false x)) := by
  rw [step_transmitting (s := setSeq r .ledOff i x) hst]
  change Host.Outcome.next (goPhase .unlock (indicator false (setSeq r .ledOff i x))) = _
  rw [indicator_setSeq]; rfl

theorem step_unlock : step (setSeq r .unlock i x) = .next (setSeq r .gap i (leave x)) :=
  step_transmitting (s := setSeq r .unlock i x) hst

theorem step_gap : step (setSeq r .gap i x) = .next (setSeq r .yield i (wait tGap x)) := by
  rw [step_transmitting (s := setSeq r .gap i x) hst]
  change Host.Outcome.next (goPhase .yield (wait tGap (setSeq r .gap i x))) = _
  rw [wait_setSeq]; rfl

end

/-! ## The Locked window -/

theorem pbRead_congr {s t : State} (h : t.pb = s.pb) (j : Nat) : pbRead j t = pbRead j s := by
  unfold pbRead; rw [h]

/-- The data pulses, two rows each, are PULSE run whole, in a state or a fault (rules R191, R199). -/
theorem pulses_run (r : Byte) {n j p : Nat} {x : State} (hst : x.st = .transmitting) (hplen : x.plen = BitVec.ofNat 7 p)
    (hp : p ≤ 72) (hj : j + n = p) :
    runSteps (2 * n) (setSeq r (pulsePhase (BitVec.ofNat 7 j) x.plen) (BitVec.ofNat 7 j) x) =
      andThen (settle (dataPulses n j x)) (fun u => .next (setSeq r .postHi (BitVec.ofNat 7 p) u)) := by
  induction n generalizing j x with
  | zero =>
    obtain rfl : j = p := hj
    rw [pulsePhase, if_pos hplen.symm]
    rfl
  | succ n ih =>
    have hne : BitVec.ofNat 7 j ≠ x.plen := by
      rw [hplen]
      intro h
      have := congrArg BitVec.toNat h
      simp only [BitVec.toNat_ofNat] at this
      omega
    have hjNat : (BitVec.ofNat 7 j).toNat = j := by rw [BitVec.toNat_ofNat]; omega
    have hread : pbRead j (pulseHigh x) = pbRead j x := pbRead_congr (pulseHigh_pb x) j
    rw [pulsePhase, if_neg hne, Nat.mul_succ, run_step (step_pulseHi r _ hst), dataPulses, dataPulse]
    cases hr : pbRead j x with
    | error f =>
      rw [run_succ, step_pulseLo_error r _ (x := pulseHigh x) (by simpa using hst) (by rw [hjNat, hread, hr])]
      rfl
    | ok d =>
      rw [run_step (step_pulseLo_ok r _ (x := pulseHigh x) (by simpa using hst) (by rw [hjNat, hread, hr]))]
      have hnext := ih (j := j + 1) (x := pulseLow d (pulseHigh x)) (by simpa using hst)
        (by simpa using hplen) (by omega)
      rw [BitVec.ofNat_add, pulseLow_plen] at hnext
      exact hnext

theorem dataPulses_keeps {n j : Nat} {s t : State} (h : dataPulses n j s = .ok t) :
    t.st = s.st ∧ t.seq = s.seq ∧ t.plen = s.plen := by
  induction n generalizing j s with
  | zero => cases h; exact ⟨rfl, rfl, rfl⟩
  | succ n ih =>
    unfold dataPulses at h
    split at h
    next u hu =>
      obtain ⟨d, -, rfl⟩ := dataPulse_ok hu
      simpa using ih h
    next => cases h

/-- The rows from LED_ON to LED_OFF are the Locked window of a repetition run whole (rules R192, R199). -/
theorem window_run (r : Byte) (i : PulseIndex) {p : Nat} {x : State} (hst : x.st = .transmitting)
    (hplen : x.plen = BitVec.ofNat 7 p) (hp : p ≤ 72) :
    runSteps (2 * p + 6) (setSeq r .ledOn i x) =
      andThen (settle (dataPulses p 0 (latchPulse (indicator true x))))
        (fun u => .next (setSeq r .unlock (BitVec.ofNat 7 p) (indicator false (latchPulse u)))) := by
  have hpulses := pulses_run r (n := p) (j := 0) (x := latchPulse (indicator true x)) (by simpa using hst)
    (by simpa using hplen) hp (Nat.zero_add p)
  rw [show 2 * p + 6 = 2 * p + 3 + 1 + 1 + 1 from rfl, run_step (step_ledOn r i hst),
    run_step (step_preHi r i (by simpa using hst)), run_step (step_preLo r i (by simpa using hst)), run_add]
  simp only [latchPulse_plen, indicator_plen, driveTx_plen, wait_plen] at hpulses ⊢
  refine (congrArg (andThen · (runSteps 3)) hpulses).trans ?_
  cases hd : dataPulses p 0 (latchPulse (indicator true x)) with
  | error f => rfl
  | ok u =>
    obtain ⟨hu, -⟩ := dataPulses_keeps hd
    have hust : u.st = .transmitting := hu.trans (by simpa using hst)
    change runSteps 3 (setSeq r .postHi (BitVec.ofNat 7 p) u) = _
    rw [run_step (step_postHi r _ hust), run_step (step_postLo r _ (by simpa using hust)),
      run_step (step_ledOff r _ (by simpa using hust))]
    rfl

end Sys2Proof.Machine
end

section
/-! How long the Locked window lasts (rules R197, R200). -/

namespace Sys2Proof.Machine

open Sys2Proof

/-- The Locked window lasts as long as its two latches and its data pulses (rules R197, R200). -/
theorem window_time {s : State} {p : Nat} (hst : s.st = .transmitting) (hlock : s.lock = .locked)
    (hph : s.seq.phase = .ledOn) (hplen : s.plen = BitVec.ofNat 7 p) (hp : p ≤ 72)
    (hw : ∀ j < p, (entry s j).isSome = true) :
    ∃ t, runSteps (2 * p + 6) s = .next t ∧ t.seq.phase = .unlock ∧ t.lock = .locked ∧
      t.now = s.now + (pulseTime s p + 5910) := by
  have hs : setSeq s.seq.rep .ledOn s.seq.pidx s = s := by rw [← hph]; rfl
  have hpb : (indicator true s).pb = s.pb := indicator_pb s true
  have hrun := window_run s.seq.rep s.seq.pidx hst hplen hp
  obtain ⟨u, hu, hstate, -, hexact⟩ := latchedPulses_drove (p := p) (s := indicator true s) (by
    intro j hj; rw [entry_congr hpb]; exact hw j hj)
  rw [hs, hu] at hrun
  refine ⟨_, hrun, rfl, ?_, ?_⟩
  · rw [setSeq_lock, indicator_lock, hstate]
    exact (indicator_lock s true).trans hlock
  · rw [setSeq_now, indicator_now, hexact ((indicator_lock s true).trans hlock), indicator_now, lowPeriods_congr hpb,
      waitSum_append, waitSum_append, waitSum_latchTrace, pulseTime]
    omega

/-- Settles O49: `window_time`, with the time of the data pulses of either frame. -/
theorem lockedWindowIsExact : Obligations.LockedWindowIsExact := by
  intro s hst hlock hph
  refine ⟨fun f hplen h => ?_, fun f hplen h => ?_⟩
  · have htime := window_time (p := 64) hst hlock hph hplen (by omega) (holdsFrame_written h)
    rw [pulseTime_f32 h] at htime
    exact htime
  · have htime := window_time (p := 72) hst hlock hph hplen (by omega) (holdsFrame_written h)
    rw [pulseTime_f36 h] at htime
    exact htime

end Sys2Proof.Machine
end

section
/-! The step table refines the transmission run whole (rules R193, R199), and a command runs to its end (rule R269). -/

namespace Sys2Proof.Machine

open Sys2Proof

/-! ## One repetition -/

/-- Where the step table is after a repetition: the next one or the end of the transmission once it is done, the request
that is not answered otherwise (rule R199, code 11). -/
def settleRepetition (r : Except Fault Progress) : Host.Outcome State Fault Refusal :=
  match r with
  | .ok (.done t) => .next (yieldStep t)
  | .ok (.waiting t) => .next t
  | .error f => .fault f

/-- The row YIELD is the yield of a repetition run whole. -/
theorem yield_run {r : Byte} {p : Nat} {v : State} (hst : v.st = .transmitting) (hrep : v.seq.rep = r) :
    runSteps 1 (setSeq r .yield (BitVec.ofNat 7 p) v) = settleRepetition (.ok (askYield p v)) := by
  have hask := yieldTurn_setSeq r (BitVec.ofNat 7 p) (x := v) .yield
  cases hy : yieldTurn v with
  | none =>
    rw [hy] at hask
    have hstep := step_yield_withheld (s := setSeq r .yield (BitVec.ofNat 7 p) v) hst rfl hask
    rw [askYield_withheld hy, run_step hstep, hrep]
    rfl
  | some w =>
    rw [hy] at hask
    have hw : w.seq.rep = r := by rw [yieldTurn_cases hy]; exact hrep
    have hstep : step (setSeq r .yield (BitVec.ofNat 7 p) v) =
        .next (yieldStep (setSeq r .yield (BitVec.ofNat 7 p) w)) := by
      simp only [step_transmitting (s := setSeq r .yield (BitVec.ofNat 7 p) v) hst, sequencerStep, setSeq_seq, hask,
        Option.map_some]
    rw [askYield_answered hy, run_step hstep, hw]
    rfl

/-- From the start of a repetition the step table reaches what the repetition run whole gives, whatever the platform
answers and whatever the buffer holds. -/
theorem repetition_run {r : Byte} {p : Nat} {s : State} (hst : s.st = .transmitting)
    (hseq : s.seq = { rep := r, phase := .lockReq, pidx := 0#7 }) (hplen : s.plen = BitVec.ofNat 7 p) (hp : p ≤ 72) :
    runSteps (2 * p + 10) s = settleRepetition (repetitionRun p s) := by
  have hrep : s.seq.rep = r := congrArg Seq.rep hseq
  have hph : s.seq.phase = .lockReq := congrArg Seq.phase hseq
  cases he : enter s with
  | none =>
    have hs : setSeq r .lockReq 0#7 s = s := by rw [setSeq, ← hseq]
    rw [repetitionRun_withheld he, run_stuck (step_lockReq_withheld hst hph he), hrep, hs]
    rfl
  | some t =>
    obtain rfl := enter_cases he
    have hstep : step s = .next (setSeq r .ledOn 0#7 (granted s)) := by
      simp only [step_transmitting hst, sequencerStep, he, goPhase, granted_seq, hseq]
    rw [show 2 * p + 10 = 2 * p + 6 + 3 + 1 from rfl, run_step hstep,
      run_add (2 * p + 6) 3, window_run r 0#7 (x := granted s) hst hplen hp, repetitionRun_granted he]
    cases hd : dataPulses p 0 (latchPulse (indicator true (granted s))) with
    | error f => rfl
    | ok u =>
      obtain ⟨hust, huseq, -⟩ := dataPulses_keeps hd
      simp only [latchPulse_st, latchPulse_seq, indicator_st, indicator_seq, granted_st, granted_seq] at hust huseq
      have hstu : (indicator false (latchPulse u)).st = .transmitting := by simpa [hust] using hst
      change runSteps 3 (setSeq r .unlock (BitVec.ofNat 7 p) (indicator false (latchPulse u))) =
        settleRepetition (.ok (askYield p (closeRepetition (latchPulse u))))
      rw [run_step (step_unlock r _ hstu), run_step (step_gap r _ (x := leave (indicator false (latchPulse u))) hstu)]
      refine yield_run (v := closeRepetition (latchPulse u)) ?_ ?_
      · simpa [closeRepetition_eq, hust] using hst
      · simp [closeRepetition_eq, huseq, hrep]

/-! ## The transmission -/

/-- A repetition that is done leaves the core transmitting at the start of the same repetition. -/
theorem repetitionRun_done_keeps {p : Nat} {s t : State} (h : repetitionRun p s = .ok (.done t)) :
    t.st = s.st ∧ t.plen = s.plen ∧ t.seq.rep = s.seq.rep ∧ t.cfg = s.cfg := by
  have hcfg : t.cfg = s.cfg := repetitionRun_cfg h
  obtain ⟨-, hw⟩ | ⟨x, u, v, he, hd, rfl, ⟨-, hw⟩ | ⟨w, hy, hw⟩⟩ := repetitionRun_cases h
  · cases hw
  · cases hw
  · cases hw
    obtain ⟨hust, huseq, huplen⟩ := dataPulses_keeps hd
    rw [yieldTurn_cases hy] at hcfg ⊢
    rw [enter_cases he] at hust huseq huplen
    refine ⟨?_, ?_, ?_, hcfg⟩
    · simpa [closeRepetition_eq] using hust
    · simpa [closeRepetition_eq] using huplen
    · simp [closeRepetition_eq, huseq]

/-- A repetition that waits stands at a request whose row leaves it there (rule R249, codes 2 and 3). -/
theorem repetitionRun_waiting_stuck {p : Nat} {s t : State} (hst : s.st = .transmitting)
    (h : repetitionRun p s = .ok (.waiting t)) : step t = .next t := by
  obtain ⟨he, hw⟩ | ⟨x, u, v, he, hd, rfl, ⟨hy, hw⟩ | ⟨w, -, hw⟩⟩ := repetitionRun_cases h
  · cases hw
    exact step_lockReq_withheld hst rfl (by rw [enter_setSeq, he]; rfl)
  · cases hw
    obtain ⟨hust, -⟩ := dataPulses_keeps hd
    rw [enter_cases he] at hust
    refine step_yield_withheld ?_ rfl (by rw [yieldTurn_setSeq, hy]; rfl)
    simpa [closeRepetition_eq, hust] using hst
  · cases hw

/-- From the start of any repetition the step table reaches what the rest of TRANSMIT gives, by induction on the
repetitions left. -/
theorem repetitions_run {r : Byte} {p n : Nat} {s : State} (hst : s.st = .transmitting)
    (hseq : s.seq = { rep := r, phase := .lockReq, pidx := 0#7 }) (hplen : s.plen = BitVec.ofNat 7 p) (hp : p ≤ 72)
    (hn : r.toNat + (n + 1) = s.cfg.txCount.toNat) :
    runSteps ((n + 1) * (2 * p + 10)) s = settleProgress (finishTransmit (repetitions p (n + 1) s)) := by
  induction n generalizing s r with
  | zero =>
    rw [Nat.zero_add, Nat.one_mul, repetition_run hst hseq hplen hp, repetitions]
    cases hrun : repetitionRun p s with
    | error f => rfl
    | ok progress =>
      cases progress with
      | waiting t => rfl
      | done t =>
        obtain ⟨-, -, hrep, hcfg⟩ := repetitionRun_done_keeps hrun
        have hlast : t.seq.rep + 1#8 = t.cfg.txCount := by
          rw [hrep, hcfg, hseq]
          exact BitVec.eq_of_toNat_eq (by have := s.cfg.txCount.isLt; rw [BitVec.toNat_add]; simp; omega)
        exact congrArg Host.Outcome.next (if_pos hlast)
  | succ n ih =>
    rw [Nat.succ_mul, Nat.add_comm, run_add, repetition_run hst hseq hplen hp, repetitions]
    cases hrun : repetitionRun p s with
    | error f => rfl
    | ok progress =>
      cases progress with
      | waiting t => exact run_stuck (repetitionRun_waiting_stuck hst hrun) _
      | done t =>
        obtain ⟨htst, htplen, hrep, hcfg⟩ := repetitionRun_done_keeps hrun
        have hcount : (r + 1#8).toNat = r.toNat + 1 := by
          have := s.cfg.txCount.isLt
          rw [BitVec.toNat_add]; simp; omega
        have hnext : t.seq.rep + 1#8 ≠ t.cfg.txCount := by
          rw [hrep, hcfg, hseq]
          intro h
          have hsame : (r + 1#8).toNat = s.cfg.txCount.toNat := congrArg BitVec.toNat h
          omega
        have hyield : yieldStep t = setSeq (t.seq.rep + 1#8) .lockReq 0#7 t := if_neg hnext
        change runSteps _ (yieldStep t) = _
        rw [hyield]
        refine ih (s := setSeq (t.seq.rep + 1#8) .lockReq 0#7 t) (htst.trans hst) rfl (htplen.trans hplen) ?_
        rw [hrep, hseq, setSeq_cfg, hcfg, hcount]
        omega

/-- Settles O42: TRANSMIT from the start of the sequencer is its repetitions from the first. -/
theorem stepTableRefinesTransmit : Obligations.StepTableRefinesTransmit := by
  intro s p hst hseq hplen hcount
  have hstart : setSeq 0#8 .lockReq 0#7 s = s := by rw [setSeq, ← Seq.start, ← hseq]
  obtain ⟨n, hn⟩ := Nat.exists_eq_succ_of_ne_zero (mt (toNat_eq_zero_iff _).1 hcount)
  have hp : s.plen = BitVec.ofNat 7 p.val := by rw [← hplen, BitVec.ofNat_toNat, BitVec.setWidth_eq]
  rw [exec_transmit, hstart, hn]
  exact repetitions_run hst hseq hp (by omega) (by rw [hn]; simp)

/-! ## A command -/

/-- A core at rest that an accepted command has launched, or left IDLE at a count of 0, comes to the end of its
transmission when the platform answers every request (rules R202, R269). -/
theorem launched_run {t : State} (hst : t.st = if t.cfg.txCount = 0#8 then .idle else .transmitting)
    (hlock : t.lock = .unlocked) (htx : t.tx = false) (hled : t.led = false) (hseq : t.seq = Seq.start)
    (hplen : t.plen.toNat < 73) (hw : ∀ j < t.plen.toNat, (entry t j).isSome = true)
    (hl : enough t.cfg.txCount.toNat t.lockAnswers = true) (hy : enough t.cfg.txCount.toNat t.yieldAnswers = true) :
    ∃ now draws, runSteps (t.cfg.txCount.toNat * (2 * t.plen.toNat + 10)) t = .next { t with
      st := .idle
      lockAnswers := spend t.cfg.txCount.toNat t.lockAnswers, yieldAnswers := spend t.cfg.txCount.toNat t.yieldAnswers
      wave := t.wave ++ transmitTrace (indicatorEnabled t) (lowPeriods t t.plen.toNat) t.cfg.txCount.toNat
      now := now, draws := draws } := by
  by_cases hcount : t.cfg.txCount = 0#8
  · rw [if_pos hcount] at hst
    refine ⟨t.now, t.draws, ?_⟩
    simp [hcount, run_zero, ← hst]
  · rw [if_neg hcount] at hst
    obtain ⟨now, draws, hexec, -⟩ := transmitAppendsItsTrace t ⟨t.plen.toNat, hplen⟩ hl hy hw
    have hrun := (stepTableRefinesTransmit t ⟨t.plen.toNat, hplen⟩ hst hseq rfl hcount).trans hexec
    exact ⟨now, draws, hrun.trans (by simp [hcount, hlock, htx, hled, hseq])⟩

/-- Settles O43: the acceptance leaves a core at rest with its frame encoded and its transmission launched, which
`launched_run` runs to its end. -/
theorem commandRunsToItsEnd : Obligations.CommandRunsToItsEnd := by
  intro s w rest hs hst hm hop hl hy
  obtain ⟨-, -, -, -, -, -, -, hrest, -⟩ := hs
  obtain ⟨hlock, htx, hled, hseq⟩ := hrest (by simp [hst])
  have hst' : { s with moves := rest }.st = .idle := hst
  obtain ⟨t, ht, -, ⟨-, hstate⟩, -⟩ := exec_command hst' hop
  obtain ⟨hplen, hwritten⟩ := exec_command_plen hst' hop ht
  have hstep : step s = .next t := (step_idle_command hst hm).trans ht
  have hcfg : t.cfg = s.cfg := by rw [hstate]
  have htst : t.st = if t.cfg.txCount = 0#8 then .idle else .transmitting := by rw [hcfg, hstate]
  have htseq : t.seq = Seq.start := by rw [hstate]; simp [hseq]
  have htlock : t.lock = .unlocked := by rw [hstate]; exact hlock
  have httx : t.tx = false := by rw [hstate]; exact htx
  have htled : t.led = false := by rw [hstate]; exact hled
  obtain ⟨now, draws, hrun⟩ := launched_run htst htlock httx htled htseq
    (by obtain h | h := hplen <;> rw [h] <;> decide) hwritten (by rw [hcfg, hstate]; exact hl)
    (by rw [hcfg, hstate]; exact hy)
  rw [← run_step hstep, congrArg Cfg.txCount hcfg] at hrun
  refine ⟨t, _, _, hstep, hrun, Nat.add_comm _ _, rfl, htlock, httx, htled, htseq, rfl, rfl, rfl, rfl, rfl, ?_, hcfg,
    ?_, ?_⟩
  · rw [hstate]
  · rw [hstate]
  · have hen : indicatorEnabled t = indicatorEnabled s := by rw [indicatorEnabled, hcfg]; rfl
    have hwave : t.wave = s.wave := by rw [hstate]
    rw [hen, hwave]

end Sys2Proof.Machine
end
